-- ==== Sys2Proof/Word.lean ====
section
/-! DEFINITION. The word types of the block. Every value is unsigned (spec 00 R9).

A pulse duration and the `size` operand are natural numbers: the block compares them and does nothing else with them, and
their widths `DUR_W` and `SIZE_W` are parameters of a build. That one fits its width is checked by `durFits` and `sizeFits`
(spec 00 R4, log 12). -/

namespace Sys2Proof

/-- Eight bits of a word as the model lays words out in bytes (log 6). -/
abbrev Byte := BitVec 8

/-- `FRAME_LEN`, the number of bits in a frame, fixed by the source (spec 00 R1). -/
abbrev FRAME_LEN : Nat := 59

/-- A frame as a vector of `FRAME_LEN` bits: bit `k` is frame index `k` (spec 20 R34). -/
abbrev Frame := BitVec 59

end Sys2Proof
end

