-- ==== Sys2Proof/Config.lean ====
section
/-! DEFINITION. The parameters an integrator fixes when the block is built: two widths, three thresholds and a timeout
(spec 00 R2, R3, R4; spec 10 R25). -/

namespace Sys2Proof

/-- The two width parameters, at the spec's defaults where none is given (spec 00 R4, spec 93 P3). -/
structure Widths where
  /-- `DUR_W`, the bits of a pulse duration. -/
  durW : Nat := 32
  /-- `SIZE_W`, the bits of the `size` operand. -/
  sizeW : Nat := 8
  deriving DecidableEq, Repr, Inhabited

/-- The spec's defaults, `DUR_W = 32` and `SIZE_W = 8` (spec 00 R4). -/
abbrev Widths.default : Widths := { durW := 32, sizeW := 8 }

/-- `DUR_W >= 1` and `SIZE_W >= 6`, "59 needs six bits" (spec 00 R4). -/
abbrev Widths.wf (w : Widths) : Prop := 1 ≤ w.durW ∧ 6 ≤ w.sizeW

/-- The four numeric parameters. Microseconds, unsigned. -/
structure Times where
  /-- `LOW_MIN`: the largest duration that is still too short. -/
  lowMin : Nat
  /-- `BIT0_MAX`: the largest duration that is bit 0. -/
  bit0Max : Nat
  /-- `BIT1_MAX`: the largest duration that is bit 1. -/
  bit1Max : Nat
  /-- `PULSE_TIMEOUT`: the timeout handed to the PulseSource; the core itself never reads it. -/
  pulseTimeout : Nat
  deriving DecidableEq, Repr, Inhabited

/-- The constraints of spec 00 R2 and R3 under the widths of a build. -/
abbrev Times.wf (t : Times) (w : Widths) : Prop :=
  t.lowMin < t.bit0Max ∧ t.bit0Max < t.bit1Max ∧ t.bit1Max < 2 ^ w.durW ∧ 0 < t.pulseTimeout ∧ t.pulseTimeout < 2 ^ w.durW

/-- The example set P0 (spec 92 D29). The spec calls it an illustration and so does the model: it is used by the tests and
as the proof that some set meets the constraints, and `State.reset` does not hold it. -/
abbrev Times.P0 : Times := { lowMin := 50000, bit0Max := 150000, bit1Max := 250000, pulseTimeout := 1500000 }

/-- A set of all the parameters, checked or not. -/
structure RawParams where
  widths : Widths := Widths.default
  times : Times
  deriving DecidableEq, Repr, Inhabited

/-- Every constraint on the parameters (spec 00 R2, R3, R4). -/
abbrev RawParams.wf (r : RawParams) : Prop := r.widths.wf ∧ r.times.wf r.widths

/-- P0 at the default widths. -/
abbrev RawParams.P0 : RawParams := { times := Times.P0 }

/-- A parameter set the block is defined for: the constraints travel with the values (spec 00 R2 refuses every other set). -/
structure Params where
  raw : RawParams
  ok : raw.wf
  deriving DecidableEq, Repr

namespace Params

abbrev widths (p : Params) : Widths := p.raw.widths
abbrev durW (p : Params) : Nat := p.raw.widths.durW
abbrev sizeW (p : Params) : Nat := p.raw.widths.sizeW
abbrev lowMin (p : Params) : Nat := p.raw.times.lowMin
abbrev bit0Max (p : Params) : Nat := p.raw.times.bit0Max
abbrev bit1Max (p : Params) : Nat := p.raw.times.bit1Max
abbrev pulseTimeout (p : Params) : Nat := p.raw.times.pulseTimeout

/-- The example set P0 as a checked set. -/
abbrev P0 : Params := { raw := RawParams.P0, ok := by decide }

end Params

/-- Four numbers that a block of the default widths may be built with. -/
structure OpenTimes where
  times : Times := Times.P0
  ok : times.wf Widths.default := by decide
  deriving DecidableEq, Repr, Inhabited

/-- The four numbers this block was built with. The spec gives no values (spec 92 D9, D10), so nothing is known of them but
the constraints: no value can be proved of this constant (log 3). -/
opaque Config.times : OpenTimes

/-- The parameters of the block `State.reset` is the reset state of: the spec's default widths (spec 00 R4) and four numbers
left open. A block of any other parameters is a state that holds those. -/
def Config.params : Params :=
  { raw := { widths := Widths.default, times := Config.times.times }, ok := ⟨by decide, Config.times.ok⟩ }

end Sys2Proof
end

