-- ==== Sys2Proof/Syntax.lean ====
section
/-! DEFINITION. The 19 operations of the block (spec 30 section 5, `opcode_table.json`), and what selects each of them. -/

namespace Sys2Proof

/-- The operations of the block, one constructor per row of the opcode table, in the table's order. Ignored operand fields
(spec 30 R61) are kept, so that encoding an operation drops no bit. -/
inductive Instr where
  /-- `CLASSIFY` (spec 40 R70): the pure classifier. -/
  | classify (noPulse : Bool) (dur : Nat)
  /-- `ACQUIRE` (spec 41 R80); `frame` is ignored. -/
  | acquire (size : Nat) (frame : Frame)
  /-- `SYNC` (spec 41 R83): a response accepted in `WAIT_MARKER`; `dur` is ignored. -/
  | sync (noPulse : Bool) (dur : Nat)
  /-- `CAPTURE` (spec 42 R90): a response accepted in `CAPTURE`. -/
  | capture (noPulse : Bool) (dur : Nat)
  /-- `EXTRACT.TF` (spec 43 R102). -/
  | extractTf (frame : Frame)
  /-- `EXTRACT.A1` (spec 43 R103). -/
  | extractA1 (frame : Frame)
  /-- `EXTRACT.MINUTE` (spec 43 R104). -/
  | extractMinute (frame : Frame)
  /-- `EXTRACT.HOUR` (spec 43 R105). -/
  | extractHour (frame : Frame)
  /-- `EXTRACT.DAY` (spec 43 R106). -/
  | extractDay (frame : Frame)
  /-- `EXTRACT.WEEKDAY` (spec 43 R107). -/
  | extractWeekday (frame : Frame)
  /-- `EXTRACT.MONTH` (spec 43 R108). -/
  | extractMonth (frame : Frame)
  /-- `EXTRACT.YEAR` (spec 43 R109). -/
  | extractYear (frame : Frame)
  /-- `PARITY.MINUTE` (spec 44 R115). -/
  | parityMinute (frame : Frame)
  /-- `PARITY.HOUR` (spec 44 R116). -/
  | parityHour (frame : Frame)
  /-- `PARITY.DATE` (spec 44 R117). -/
  | parityDate (frame : Frame)
  /-- `PLAUS` (spec 45 R125). -/
  | plaus (day : BitVec 6) (month : BitVec 5) (year : BitVec 8)
  /-- `DECODE` (spec 46 R130). -/
  | decode (size : Nat) (frame : Frame)
  /-- `NOP` (spec 46 R134); both fields are ignored. -/
  | nop (size : Nat) (frame : Frame)
  /-- `RSVD` (spec 46 R135): RESERVED. Accepted, acts as `NOP`, and a host must not issue it. Both fields are ignored. -/
  | rsvd (size : Nat) (frame : Frame)
  deriving DecidableEq, Repr

/-- The thirteen pure functions (spec 00 section 4): called by a step, never commanded. -/
inductive Fn where
  | classify
  | extractTf | extractA1 | extractMinute | extractHour | extractDay | extractWeekday | extractMonth | extractYear
  | parityMinute | parityHour | parityDate
  | plaus
  deriving DecidableEq, Repr

/-- Where a word arrives. The spec tells its formats apart "by the port they arrive on, never by their bits" (spec 30 R50).
`call` presents a word to one pure function by itself (the model's own door to it, log 5). -/
inductive Port where
  | cmd
  | rsp
  | call (fn : Fn)
  deriving DecidableEq, Repr

/-- What selects an operation: the "selected by" column of spec 30 section 5. A command word selects by its `op` bits; a
response word selects by `st`, so it comes as `sync` or `capture`; a pure function is selected by its caller. -/
inductive Selector where
  | cmd
  | sync
  | capture
  | call (fn : Fn)
  deriving DecidableEq, Repr

/-- The formats of spec 30 R50, and `values` for the three operands of `PLAUS` (the opcode table's format name). -/
inductive Format where
  | frame
  | cw
  | rw
  | values
  deriving DecidableEq, Repr

/-- A word as the decoder is given it: what selected it, and its bytes, least significant first (log 6). -/
structure Packet where
  sel : Selector
  bytes : List Byte
  deriving DecidableEq, Repr

end Sys2Proof
end

