-- ==== Sys2Proof/WellFormed.lean ====
section
/-! DEFINITION. What is well formed: a parameter set (spec 00 R2, R3, R4), an operation's operands under the widths of a
build (spec 00 R4, spec 30 R53, R55), and an operation a host may issue (spec 30 R60). A packet's check stands with the byte
layout in Decode.lean. -/

namespace Sys2Proof

/-- Builds a block's parameters from a raw set; a set that breaks spec 00 R2, R3 or R4 is refused. -/
def Params.build (r : RawParams) : Option Params :=
  if h : r.wf then some { raw := r, ok := h } else none

/-- A size fits the `SIZE_W` bits of its port (spec 10 R29). -/
def sizeFits (w : Widths) (size : Nat) : Bool := decide (size < 2 ^ w.sizeW)

/-- A duration fits the `DUR_W` bits of its port (spec 10 R29). -/
def durFits (w : Widths) (dur : Nat) : Bool := decide (dur < 2 ^ w.durW)

/-- An operation's operands fit the widths of a build. Every value that fits is legal (spec 30 R60). -/
def Instr.wf (w : Widths) (i : Instr) : Bool :=
  match i with
  | .classify _ dur => durFits w dur
  | .acquire size _ => sizeFits w size
  | .sync _ dur => durFits w dur
  | .capture _ dur => durFits w dur
  | .extractTf _ => true
  | .extractA1 _ => true
  | .extractMinute _ => true
  | .extractHour _ => true
  | .extractDay _ => true
  | .extractWeekday _ => true
  | .extractMonth _ => true
  | .extractYear _ => true
  | .parityMinute _ => true
  | .parityHour _ => true
  | .parityDate _ => true
  | .plaus _ _ _ => true
  | .decode size _ => sizeFits w size
  | .nop size _ => sizeFits w size
  | .rsvd size _ => sizeFits w size

/-- An operation a host or a PulseSource may cause. The one check: "A host must not use" the reserved opcode (spec 30 R60).
The block accepts it all the same (spec 46 R135), so decoding and meaning do not ask this. -/
def Instr.mayIssue (i : Instr) : Bool :=
  match i with
  | .classify _ _ => true
  | .acquire _ _ => true
  | .sync _ _ => true
  | .capture _ _ => true
  | .extractTf _ => true
  | .extractA1 _ => true
  | .extractMinute _ => true
  | .extractHour _ => true
  | .extractDay _ => true
  | .extractWeekday _ => true
  | .extractMonth _ => true
  | .extractYear _ => true
  | .parityMinute _ => true
  | .parityHour _ => true
  | .parityDate _ => true
  | .plaus _ _ _ => true
  | .decode _ _ => true
  | .nop _ _ => true
  | .rsvd _ _ => false

end Sys2Proof
end

