-- ==== Sys2Proof/Decode.lean ====
section
/-! DEFINITION. Decoding words into operations, and encoding operations into words (spec 30 R50 to R55; the byte layout is
the model's, log 6 and 7). -/

namespace Sys2Proof

/-- Why the decoder refuses bytes. No port of the block can deliver such bytes (spec 30 R60: no encoding is illegal). -/
inductive DecodeError where
  /-- The number of bytes is not the format's (a value too wide for its port has no bytes, log 12). -/
  | wrongLength
  /-- A bit beyond the format's width is set. -/
  | paddingSet
  deriving DecidableEq, Repr

/-! ## Formats and bytes -/

/-- The width of a format in bits (spec 30 R50, spec 00 R4): 69 for `CW` and 33 for `RW` at the default widths. -/
def Format.width (w : Widths) (f : Format) : Nat :=
  match f with
  | .frame => 59
  | .cw => 2 + w.sizeW + 59
  | .rw => 1 + w.durW
  | .values => 19

/-- The number of bytes that hold a word of a format. -/
def Format.bytes (w : Widths) (f : Format) : Nat := (f.width w + 7) / 8

/-- The format a pure function reads (the "format" column of spec 30 section 5). -/
def Fn.format (fn : Fn) : Format :=
  match fn with
  | .classify => .rw
  | .extractTf => .frame
  | .extractA1 => .frame
  | .extractMinute => .frame
  | .extractHour => .frame
  | .extractDay => .frame
  | .extractWeekday => .frame
  | .extractMonth => .frame
  | .extractYear => .frame
  | .parityMinute => .frame
  | .parityHour => .frame
  | .parityDate => .frame
  | .plaus => .values

/-- The format that comes with a selector (spec 30 section 5). -/
def Selector.format (s : Selector) : Format :=
  match s with
  | .cmd => .cw
  | .sync => .rw
  | .capture => .rw
  | .call fn => fn.format

/-- `n` bytes of a number, least significant byte first (log 6). -/
def leBytes (n : Nat) (v : Nat) : List Byte :=
  match n with
  | 0 => []
  | k + 1 => BitVec.ofNat 8 v :: leBytes k (v / 256)

/-- The number that bytes stand for, least significant byte first (log 6). -/
def leValue (bs : List Byte) : Nat :=
  match bs with
  | [] => 0
  | b :: rest => b.toNat + 256 * leValue rest

/-- A packet is well formed when it has its format's number of bytes and no bit beyond its format's width. -/
def Packet.wf (w : Widths) (p : Packet) : Bool :=
  p.bytes.length == p.sel.format.bytes w && decide (leValue p.bytes < 2 ^ p.sel.format.width w)

/-! ## The decoder -/

/-- Opcode values (spec 30 R54). -/
abbrev OP_NOP : BitVec 2 := 0b00
abbrev OP_ACQUIRE : BitVec 2 := 0b01
abbrev OP_DECODE : BitVec 2 := 0b10
abbrev OP_RSVD : BitVec 2 := 0b11

/-- The `frame` field of a command word, bits 58:0 (spec 30 R53). -/
def cwFrame (v : Nat) : Frame := BitVec.ofNat 59 v

/-- The `size` field of a command word, the `SIZE_W` bits above `frame`: bits 66:59 at the default (spec 30 R53). -/
def cwSize (w : Widths) (v : Nat) : Nat := v / 2 ^ 59 % 2 ^ w.sizeW

/-- The `op` field of a command word, the two bits above `size`: bits 68:67 at the default (spec 30 R53). -/
def cwOp (w : Widths) (v : Nat) : BitVec 2 := BitVec.ofNat 2 (v / 2 ^ 59 / 2 ^ w.sizeW)

/-- A command word (spec 30 R53, R54). -/
def decodeCW (w : Widths) (v : Nat) : Instr :=
  if cwOp w v = OP_NOP then .nop (cwSize w v) (cwFrame v)
  else if cwOp w v = OP_ACQUIRE then .acquire (cwSize w v) (cwFrame v)
  else if cwOp w v = OP_DECODE then .decode (cwSize w v) (cwFrame v)
  else .rsvd (cwSize w v) (cwFrame v)

/-- The `no_pulse` field of a response word, the bit above `dur`: bit 32 at the default (spec 30 R55). -/
def rwNoPulse (w : Widths) (v : Nat) : Bool := decide (v / 2 ^ w.durW % 2 = 1)

/-- The `dur` field of a response word, its `DUR_W` low bits: bits 31:0 at the default (spec 30 R55). -/
def rwDur (w : Widths) (v : Nat) : Nat := v % 2 ^ w.durW

/-- A pure function applied to the value of its word: a response word for `CLASSIFY`, a frame for `EXTRACT.*` and
`PARITY.*`, `{day, month, year}` for `PLAUS` (log 7). -/
def decodeCall (w : Widths) (fn : Fn) (v : Nat) : Instr :=
  match fn with
  | .classify => .classify (rwNoPulse w v) (rwDur w v)
  | .extractTf => .extractTf (BitVec.ofNat 59 v)
  | .extractA1 => .extractA1 (BitVec.ofNat 59 v)
  | .extractMinute => .extractMinute (BitVec.ofNat 59 v)
  | .extractHour => .extractHour (BitVec.ofNat 59 v)
  | .extractDay => .extractDay (BitVec.ofNat 59 v)
  | .extractWeekday => .extractWeekday (BitVec.ofNat 59 v)
  | .extractMonth => .extractMonth (BitVec.ofNat 59 v)
  | .extractYear => .extractYear (BitVec.ofNat 59 v)
  | .parityMinute => .parityMinute (BitVec.ofNat 59 v)
  | .parityHour => .parityHour (BitVec.ofNat 59 v)
  | .parityDate => .parityDate (BitVec.ofNat 59 v)
  | .plaus =>
    let x : BitVec 19 := BitVec.ofNat 19 v
    .plaus (x.extractLsb' 13 6) (x.extractLsb' 8 5) (x.extractLsb' 0 8)

/-- The operation a selector and the value of its word stand for. -/
def decodeValue (w : Widths) (sel : Selector) (v : Nat) : Instr :=
  match sel with
  | .cmd => decodeCW w v
  | .sync => .sync (rwNoPulse w v) (rwDur w v)
  | .capture => .capture (rwNoPulse w v) (rwDur w v)
  | .call fn => decodeCall w fn v

/-- The decoder of a block of the given widths: total on any bytes, refusing by name. -/
def decode (w : Widths) (p : Packet) : Except DecodeError Instr :=
  if p.bytes.length ≠ p.sel.format.bytes w then .error .wrongLength
  else if 2 ^ p.sel.format.width w ≤ leValue p.bytes then .error .paddingSet
  else .ok (decodeValue w p.sel (leValue p.bytes))

/-! ## The encoder -/

/-- `CW = {op, size, frame}`, each field above the next (spec 30 R53). -/
def packCW (w : Widths) (op : BitVec 2) (size : Nat) (frame : Frame) : Nat :=
  frame.toNat + 2 ^ 59 * (size + 2 ^ w.sizeW * op.toNat)

/-- `RW = {no_pulse, dur}` (spec 30 R55). -/
def packRW (w : Widths) (noPulse : Bool) (dur : Nat) : Nat := dur + 2 ^ w.durW * noPulse.toNat

/-- `{day, month, year}` (log 7). -/
def packValues (day : BitVec 6) (month : BitVec 5) (year : BitVec 8) : BitVec 19 := day ++ month ++ year

/-- What selects an operation. -/
def selectorOf (i : Instr) : Selector :=
  match i with
  | .classify _ _ => .call .classify
  | .acquire _ _ => .cmd
  | .sync _ _ => .sync
  | .capture _ _ => .capture
  | .extractTf _ => .call .extractTf
  | .extractA1 _ => .call .extractA1
  | .extractMinute _ => .call .extractMinute
  | .extractHour _ => .call .extractHour
  | .extractDay _ => .call .extractDay
  | .extractWeekday _ => .call .extractWeekday
  | .extractMonth _ => .call .extractMonth
  | .extractYear _ => .call .extractYear
  | .parityMinute _ => .call .parityMinute
  | .parityHour _ => .call .parityHour
  | .parityDate _ => .call .parityDate
  | .plaus _ _ _ => .call .plaus
  | .decode _ _ => .cmd
  | .nop _ _ => .cmd
  | .rsvd _ _ => .cmd

/-- The value of an operation's word. -/
def encodeValue (w : Widths) (i : Instr) : Nat :=
  match i with
  | .classify np dur => packRW w np dur
  | .acquire size frame => packCW w OP_ACQUIRE size frame
  | .sync np dur => packRW w np dur
  | .capture np dur => packRW w np dur
  | .extractTf f => f.toNat
  | .extractA1 f => f.toNat
  | .extractMinute f => f.toNat
  | .extractHour f => f.toNat
  | .extractDay f => f.toNat
  | .extractWeekday f => f.toNat
  | .extractMonth f => f.toNat
  | .extractYear f => f.toNat
  | .parityMinute f => f.toNat
  | .parityHour f => f.toNat
  | .parityDate f => f.toNat
  | .plaus day month year => (packValues day month year).toNat
  | .decode size frame => packCW w OP_DECODE size frame
  | .nop size frame => packCW w OP_NOP size frame
  | .rsvd size frame => packCW w OP_RSVD size frame

/-- The encoder of a block of the given widths: an operation that is well formed there as the packet that stands for it. -/
def encode (w : Widths) (i : Instr) : Packet :=
  { sel := selectorOf i, bytes := leBytes ((selectorOf i).format.bytes w) (encodeValue w i) }

/-! ## Words numbered as the opcode table numbers them -/

/-- What selects the operation of a word of the opcode table, by the number of bits the table gives it (in whole bytes or
exact; at the default widths 69 or 72, 33 or 40, 59 or 64, 19 or 24). A table word has no selector bits beyond its format, so
of the operations of one format the model takes one: `SYNC` for a response word, `EXTRACT.TF` for a frame (log 8). -/
def tableSelector (w : Widths) (nbits : Nat) : Option Selector :=
  let isA (f : Format) : Bool := nbits == f.width w || nbits == 8 * f.bytes w
  if isA .cw then some .cmd
  else if isA .rw then some .sync
  else if isA .frame then some (.call .extractTf)
  else if isA .values then some (.call .plaus)
  else none

/-- The table word as a packet: its bytes, least significant first. -/
def tablePacket (w : Widths) (nbits v : Nat) : Option Packet :=
  (tableSelector w nbits).map fun sel => { sel := sel, bytes := leBytes (sel.format.bytes w) v }

/-- The operation a block of the given widths reads from a word numbered as the opcode table numbers it. -/
def decodeTableWordAt (w : Widths) (nbits v : Nat) : Option Instr :=
  (tablePacket w nbits v).bind fun p => (decode w p).toOption

/-- The operation the decoder reads from a word of the opcode table, whose widths are the defaults. -/
def decodeTableWord (nbits w : Nat) : Option Instr := decodeTableWordAt Widths.default nbits w

end Sys2Proof
end

