-- ==== Sys2Proof/Machine/State.lean ====
section
/-! DEFINITION. The state of the machine: the seven state elements of spec 10 R10 (`CoreState`), and around them the
model's own fields (log 1): the build parameters, the inputs still to come, and the value of a pure function run by itself. -/

namespace Sys2Proof.Machine

/-- `st`, the acquisition state (spec 10 R11). Codes 5 to 7 are unreachable and left out of the type (spec 30 R60, log 9). -/
inductive AcqState where
  | idle
  | waitMarker
  | capture
  | complete
  | timedOut
  deriving DecidableEq, Repr

/-- `acq_result` (spec 10 R14). -/
inductive AcqResult where
  | none
  | success
  | invalidSize
  | timeout
  deriving DecidableEq, Repr

/-- `acq_cause` (spec 10 R15). -/
inductive AcqCause where
  | none
  | noPulse
  | outOfRange
  deriving DecidableEq, Repr

/-- `dec_result` (spec 10 R16). -/
inductive DecResult where
  | none
  | success
  | invalidSize
  | parityError
  | dateError
  deriving DecidableEq, Repr

/-- The classifier's result `cls` (spec 30 R57). -/
inductive Cls where
  | bit0
  | bit1
  | noPulse
  | outOfRange
  deriving DecidableEq, Repr

/-- `TV`, the TimeValue register (spec 10 R17). -/
structure TimeValue where
  transmitterFault : BitVec 1
  a1 : BitVec 1
  minute : BitVec 7
  hour : BitVec 6
  day : BitVec 6
  weekday : BitVec 3
  month : BitVec 5
  year : BitVec 8
  deriving DecidableEq, Repr

/-- `TV = 0`: every field zero. -/
def TimeValue.zero : TimeValue :=
  { transmitterFault := 0, a1 := 0, minute := 0, hour := 0, day := 0, weekday := 0, month := 0, year := 0 }

/-- The state of the core: "exactly the seven elements" of spec 10 R10. -/
structure CoreState where
  /-- `st` (spec 10 R11). -/
  st : AcqState
  /-- `idx`, the number of bits stored (spec 10 R12). -/
  idx : BitVec 6
  /-- `FB`, the frame buffer; bit `k` is `FB[k]` (spec 10 R13, spec 20 R34). -/
  fb : Frame
  /-- `acq_result` (spec 10 R14). -/
  acqResult : AcqResult
  /-- `acq_cause` (spec 10 R15). -/
  acqCause : AcqCause
  /-- `dec_result` (spec 10 R16). -/
  decResult : DecResult
  /-- `TV` (spec 10 R17). -/
  tv : TimeValue
  deriving DecidableEq, Repr

/-- Every element at its reset value (spec 10 R27, spec 70 R160). -/
def CoreState.reset : CoreState :=
  { st := .idle, idx := 0, fb := 0, acqResult := .none, acqCause := .none, decResult := .none, tv := TimeValue.zero }

/-- The input ports sampled at one rising edge of `clk_i` (spec 10 R29). -/
structure Ports where
  /-- `rst_i`. -/
  rst : Bool
  /-- `cmd_valid_i`. -/
  cmdValid : Bool
  /-- `cmd_op_i`. -/
  cmdOp : BitVec 2
  /-- `cmd_size_i`, `SIZE_W` bits. -/
  cmdSize : Nat
  /-- `cmd_frame_i`; bit `k` is `F[k]`. -/
  cmdFrame : Frame
  /-- `ps_valid_i`. -/
  psValid : Bool
  /-- `ps_no_pulse_i`. -/
  psNoPulse : Bool
  /-- `ps_duration_i`, `DUR_W` bits. -/
  psDuration : Nat
  deriving DecidableEq, Repr

/-- An event (spec 00 R7): `Reset`, or a word presented at a port. `Cmd` is a word at `Port.cmd`, `Rsp` a word at
`Port.rsp`; a word at `Port.call fn` runs one pure function by itself (log 5). -/
inductive Event where
  | reset
  | present (port : Port) (bytes : List Byte)
  deriving DecidableEq, Repr

/-- One input still to come: a rising clock edge with the ports' values (spec 70 R170), or an event of the untimed model
(spec 00 R7). -/
inductive Input where
  | edge (ports : Ports)
  | event (e : Event)
  deriving DecidableEq, Repr

/-- The value of a pure function run by itself, tagged with the function (log 4). -/
inductive FnValue where
  | none
  | classify (c : Cls)
  | extractTf (v : BitVec 1)
  | extractA1 (v : BitVec 1)
  | extractMinute (v : BitVec 7)
  | extractHour (v : BitVec 6)
  | extractDay (v : BitVec 6)
  | extractWeekday (v : BitVec 3)
  | extractMonth (v : BitVec 5)
  | extractYear (v : BitVec 8)
  | parityMinute (ok : Bool)
  | parityHour (ok : Bool)
  | parityDate (ok : Bool)
  | plaus (ok : Bool)
  deriving DecidableEq, Repr

/-- The machine's state. -/
structure State where
  /-- The block's own state, the seven elements of spec 10 R10. -/
  core : CoreState
  /-- MODEL'S OWN: the build parameters (spec 00 R2, R3, R4), which no operation writes (log 3, 12). -/
  params : Params
  /-- MODEL'S OWN: the inputs still to come, first one next (log 2). -/
  inputs : List Input
  /-- MODEL'S OWN: the value of the last pure function run by itself (log 4). -/
  fnValue : FnValue
  deriving DecidableEq, Repr

/-- The machine right after reset (spec 10 R27): the core at its reset values, nothing placed at the inputs, and the
parameters left open (log 2, 3, 4). -/
def State.reset : State :=
  { core := CoreState.reset, params := Config.params, inputs := [], fnValue := .none }

/-- Why the machine stops with a fault. -/
inductive Fault where
  /-- Raised by `memWrite` for a cell index above 58, from a `CAPTURE` step that would store a bit while `idx` is 59 or
  more. `MemWrite` is not defined there (spec 00 section 6.2) and no reachable state has it (spec 10 R28, I5). SAFE (log 11). -/
  | frameCellOutOfRange
  deriving DecidableEq, Repr

/-- Why the machine refuses. -/
inductive Refusal where
  /-- Raised by `exec` for an operation that has no meaning yet. SAFE. -/
  | notModelled (mnemonic : String)
  /-- Raised by the step for an input whose bytes are no word of their format; no port can deliver one. SAFE (log 6). -/
  | illFormedWord (e : DecodeError)
  deriving DecidableEq, Repr

end Sys2Proof.Machine
end

