-- ==== Sys2Proof/Machine/Ops.lean ====
section
/-! DEFINITION. The named operations over the state: access to frame cells, the writes the steps make, and `raise`, the one
shared operation by which an error is reported. -/

namespace Sys2Proof.Machine

/-- `MemRead(addr, n)`: the `n` consecutive cells of a frame from `addr`, cell `addr + j` at bit `j`. Defined only inside the
frame (spec 00 section 6.2), so it takes the proof that the range is. -/
def memRead (f : Frame) (addr n : Nat) (_inside : addr + n ≤ FRAME_LEN) : BitVec n :=
  f.extractLsb' addr n

/-- `MemWrite(addr, 1, v)`: the frame with cell `addr` holding `v`, and nothing outside the frame (spec 00 section 6.2). -/
def memWrite (f : Frame) (addr : Nat) (v : Bool) : Option Frame :=
  if addr < FRAME_LEN then
    some ((f &&& ~~~(1#59 <<< addr)) ||| (if v then 1#59 <<< addr else 0#59))
  else none

namespace CoreState

/-- `busy`: an acquisition is running (spec 10 R21). -/
def busy (c : CoreState) : Bool :=
  match c.st with
  | .idle => false
  | .waitMarker => true
  | .capture => true
  | .complete => false
  | .timedOut => false

/-- The block's program counter, the pair (`st`, `idx`) (spec 10 R19). -/
def pc (c : CoreState) : AcqState × BitVec 6 := (c.st, c.idx)

/-- What an accepted `ACQUIRE 59` writes (spec 41 R80). -/
def startAcquisition (c : CoreState) : CoreState :=
  { c with acqCause := .none, acqResult := .none, idx := 0, st := .waitMarker }

/-- What `SYNC` writes at the minute marker (spec 41 R83). -/
def enterCapture (c : CoreState) : CoreState := { c with st := .capture }

/-- What `CAPTURE` writes for a bit that is not the last; `fb` is the buffer with the bit stored (spec 42 R91). -/
def advance (fb : Frame) (c : CoreState) : CoreState := { c with fb := fb, idx := c.idx + 1 }

/-- What `CAPTURE` writes for the 59th bit; `fb` is the buffer with the bit stored (spec 42 R92). -/
def complete (fb : Frame) (c : CoreState) : CoreState :=
  { c with fb := fb, idx := c.idx + 1, st := .complete, acqResult := .success }

/-- What a successful `DECODE` writes (spec 46 R132). -/
def publish (tv : TimeValue) (c : CoreState) : CoreState := { c with decResult := .success, tv := tv }

end CoreState

/-- The four errors, each with the operation that raises it and what it records (spec 60 R140). -/
inductive ErrorResult where
  /-- `INVALID_SIZE` by `ACQUIRE`. -/
  | acquireInvalidSize
  /-- `TIMEOUT` by `CAPTURE`, with its cause. -/
  | timeout (cause : AcqCause)
  /-- `INVALID_SIZE` by `DECODE`. -/
  | decodeInvalidSize
  /-- `PARITY_ERROR` by `DECODE`. -/
  | parityError
  /-- `DATE_ERROR` by `DECODE`. -/
  | dateError
  deriving DecidableEq, Repr

/-- `raise` (spec 60 R141, R148): the block's exception entry. It writes the error's code to the result register of the
operation that raised it and makes the other writes of the raising rule. There is no vector, no saved counter and no mode;
there is no return operation either, recovery is the next command (spec 60 R149). -/
def raise (e : ErrorResult) (c : CoreState) : CoreState :=
  match e with
  | .acquireInvalidSize => { c with acqCause := .none, acqResult := .invalidSize }
  | .timeout cause => { c with st := .timedOut, acqResult := .timeout, acqCause := cause }
  | .decodeInvalidSize => { c with decResult := .invalidSize, tv := TimeValue.zero }
  | .parityError => { c with decResult := .parityError, tv := TimeValue.zero }
  | .dateError => { c with decResult := .dateError, tv := TimeValue.zero }

namespace State

/-- The state with another core. -/
def withCore (s : State) (c : CoreState) : State := { s with core := c }

/-- The state with the value of a pure function reported. -/
def reportValue (s : State) (v : FnValue) : State := { s with fnValue := v }

/-- The state with its first input taken away. -/
def dropInput (s : State) : State := { s with inputs := s.inputs.tail }

/-- The event `Reset` (spec 70 R160): every element at its reset value. The parameters are constants and stay; the inputs
are the outside world's and stay; the model's own report is cleared with the rest (log 4). -/
def applyReset (s : State) : State := { s with core := CoreState.reset, fnValue := .none }

end State

end Sys2Proof.Machine
end

