-- ==== Sys2Proof/Machine/Operands.lean ====
section
/-! DEFINITION. Operand assembly: the field table of the frame and the weighted positional decode (spec 30 R51, R59;
spec 43 R100 to R109). -/

namespace Sys2Proof.Machine

/-- The weight table, index 0 first (spec 00 R1). -/
def WEIGHT : List Nat := [1, 2, 4, 8, 10, 20, 40, 80]

/-- The eight fields of a frame (spec 30 R51). -/
inductive Field where
  | transmitterFault
  | a1
  | minute
  | hour
  | day
  | weekday
  | month
  | year
  deriving DecidableEq, Repr

/-- The field table (spec 30 R51): offset and length. -/
def fieldRange (fd : Field) : Nat × Nat :=
  match fd with
  | .transmitterFault => (15, 1)
  | .a1 => (16, 1)
  | .minute => (21, 7)
  | .hour => (29, 6)
  | .day => (36, 6)
  | .weekday => (42, 3)
  | .month => (45, 5)
  | .year => (50, 8)

/-- No field leaves the frame (spec 20 R35), so the extractor needs no meaning outside it (spec 91 N12). -/
theorem fieldRange_inside (fd : Field) : (fieldRange fd).1 + (fieldRange fd).2 ≤ FRAME_LEN := by
  cases fd <;> decide

/-- The weighted sum of a field's bits: `WEIGHT[i] * bit i` over `i < min(length, 8)` (spec 30 R59, spec 43 R101). -/
def weightedSum {n : Nat} (bits : BitVec n) : Nat :=
  ((List.range (min n 8)).map fun i => WEIGHT.getD i 0 * (bits.getLsbD i).toNat).sum

/-- `EXTRACT(F, offset, length)` at a field of the table (spec 43 R100). -/
def extract (f : Frame) (fd : Field) : Nat :=
  weightedSum (memRead f (fieldRange fd).1 (fieldRange fd).2 (fieldRange_inside fd))

/-- `EXTRACT.TF` (spec 43 R102). -/
def valueTf (f : Frame) : BitVec 1 := BitVec.ofNat 1 (extract f .transmitterFault)

/-- `EXTRACT.A1` (spec 43 R103). -/
def valueA1 (f : Frame) : BitVec 1 := BitVec.ofNat 1 (extract f .a1)

/-- `EXTRACT.MINUTE` (spec 43 R104). -/
def valueMinute (f : Frame) : BitVec 7 := BitVec.ofNat 7 (extract f .minute)

/-- `EXTRACT.HOUR` (spec 43 R105). -/
def valueHour (f : Frame) : BitVec 6 := BitVec.ofNat 6 (extract f .hour)

/-- `EXTRACT.DAY` (spec 43 R106). -/
def valueDay (f : Frame) : BitVec 6 := BitVec.ofNat 6 (extract f .day)

/-- `EXTRACT.WEEKDAY` (spec 43 R107). -/
def valueWeekday (f : Frame) : BitVec 3 := BitVec.ofNat 3 (extract f .weekday)

/-- `EXTRACT.MONTH` (spec 43 R108). -/
def valueMonth (f : Frame) : BitVec 5 := BitVec.ofNat 5 (extract f .month)

/-- `EXTRACT.YEAR` (spec 43 R109). -/
def valueYear (f : Frame) : BitVec 8 := BitVec.ofNat 8 (extract f .year)

/-- All eight fields of a frame, before any check (spec 43 R113). -/
def extractAll (f : Frame) : TimeValue :=
  { transmitterFault := valueTf f
    a1 := valueA1 f
    minute := valueMinute f
    hour := valueHour f
    day := valueDay f
    weekday := valueWeekday f
    month := valueMonth f
    year := valueYear f }

end Sys2Proof.Machine
end

