-- ==== Sys2Proof/Machine/Flags.lean ====
section
/-! DEFINITION. The verdicts the block computes (the classifier's code, the three parities, plausibility) and the numeric
codes of its results (spec 30 R56, R57; spec 40 R70; spec 44 R115 to R118; spec 45 R125). -/

namespace Sys2Proof.Machine

/-- `CLASSIFY(no_pulse, dur)` (spec 40 R70): the sentinel first (R71), then the intervals, all comparisons unsigned. -/
def classify (p : Params) (noPulse : Bool) (dur : Nat) : Cls :=
  if noPulse then .noPulse
  else if dur ≤ p.lowMin then .outOfRange
  else if dur ≤ p.bit0Max then .bit0
  else if dur ≤ p.bit1Max then .bit1
  else .outOfRange

/-- The three parity ranges (spec 30 R52). -/
inductive ParityRange where
  | minute
  | hour
  | date
  deriving DecidableEq, Repr

/-- The data range of a check, offset and length; the parity bit "immediately follows its range" (spec 30 R52). -/
def parityData (r : ParityRange) : Nat × Nat :=
  match r with
  | .minute => (21, 7)
  | .hour => (29, 6)
  | .date => (36, 22)

/-- No parity range leaves the frame (spec 20 R35). -/
theorem parityData_inside (r : ParityRange) : (parityData r).1 + (parityData r).2 + 1 ≤ FRAME_LEN := by
  cases r <;> decide

/-- Exclusive-or of all bits; 0 over no bits (spec 00 section 6.1). -/
def xorBits {n : Nat} (bits : BitVec n) : Bool :=
  (List.range n).foldl (fun acc i => acc ^^ bits.getLsbD i) false

/-- One even-parity check: the XOR of the data bits equals the bit after them (spec 44 R115 to R117). -/
def parityCheck (f : Frame) (r : ParityRange) : Bool :=
  let data := memRead f (parityData r).1 (parityData r).2 (Nat.le_of_succ_le (parityData_inside r))
  let parityBit := memRead f ((parityData r).1 + (parityData r).2) 1 (parityData_inside r)
  xorBits data == parityBit.getLsbD 0

/-- `PARITY.MINUTE` (spec 44 R115). -/
def parityMinuteOk (f : Frame) : Bool := parityCheck f .minute

/-- `PARITY.HOUR` (spec 44 R116). -/
def parityHourOk (f : Frame) : Bool := parityCheck f .hour

/-- `PARITY.DATE` (spec 44 R117). -/
def parityDateOk (f : Frame) : Bool := parityCheck f .date

/-- `PARITY_OK(F)` (spec 44 R118). -/
def parityOk (f : Frame) : Bool := parityMinuteOk f && parityHourOk f && parityDateOk f

/-- `PLAUS_OK(day, month, year)` (spec 45 R125): nothing else is checked (R126). -/
def plausOk (day : BitVec 6) (month : BitVec 5) (year : BitVec 8) : Bool :=
  day != 0 && month != 0 && year != 0

/-- The code of a classifier result (spec 30 R57). -/
def Cls.code (c : Cls) : BitVec 2 :=
  match c with
  | .bit0 => 0
  | .bit1 => 1
  | .noPulse => 2
  | .outOfRange => 3

/-- The code of `st` (spec 30 R57). -/
def AcqState.code (s : AcqState) : BitVec 3 :=
  match s with
  | .idle => 0
  | .waitMarker => 1
  | .capture => 2
  | .complete => 3
  | .timedOut => 4

/-- The code of `acq_result` (spec 30 R56). -/
def AcqResult.code (r : AcqResult) : BitVec 3 :=
  match r with
  | .none => 0
  | .success => 1
  | .invalidSize => 2
  | .timeout => 3

/-- The code of `acq_cause` (spec 30 R57). -/
def AcqCause.code (c : AcqCause) : BitVec 2 :=
  match c with
  | .none => 0
  | .noPulse => 1
  | .outOfRange => 2

/-- The code of `dec_result` (spec 30 R56). -/
def DecResult.code (r : DecResult) : BitVec 3 :=
  match r with
  | .none => 0
  | .success => 1
  | .invalidSize => 2
  | .parityError => 4
  | .dateError => 5

end Sys2Proof.Machine
end

