-- ==== Sys2Proof/Machine/Outputs.lean ====
section
/-! DEFINITION. The outputs of the block, functions of the state alone (spec 10 R21 to R24), and when a measurement request
is open (spec 41 R87). -/

namespace Sys2Proof.Machine

/-- Every output port of the block (spec 10 R21 to R24). -/
structure Outputs where
  busy : Bool
  cmdReady : Bool
  psReq : Bool
  psTimeout : Nat
  frameValid : Bool
  frame : Frame
  st : BitVec 3
  idx : BitVec 6
  acqResult : BitVec 3
  acqCause : BitVec 2
  decResult : BitVec 3
  tvValid : Bool
  tvTransmitterFault : BitVec 1
  tvA1 : BitVec 1
  tvMinute : BitVec 7
  tvHour : BitVec 6
  tvDay : BitVec 6
  tvWeekday : BitVec 3
  tvMonth : BitVec 5
  tvYear : BitVec 8
  deriving DecidableEq, Repr

/-- `frame_valid_o` (spec 10 R22). -/
def frameValid (c : CoreState) : Bool := c.st == .complete

/-- `frame_o`: the buffer in `COMPLETE`, zero in every other state (spec 10 R22). -/
def frameOut (c : CoreState) : Frame := if frameValid c then c.fb else 0

/-- The output ports in a state (spec 10 R21 to R24). -/
def outputs (p : Params) (c : CoreState) : Outputs :=
  { busy := c.busy
    cmdReady := !c.busy
    psReq := c.busy
    psTimeout := p.pulseTimeout
    frameValid := frameValid c
    frame := frameOut c
    st := c.st.code
    idx := c.idx
    acqResult := c.acqResult.code
    acqCause := c.acqCause.code
    decResult := c.decResult.code
    tvValid := c.decResult == .success
    tvTransmitterFault := c.tv.transmitterFault
    tvA1 := c.tv.a1
    tvMinute := c.tv.minute
    tvHour := c.tv.hour
    tvDay := c.tv.day
    tvWeekday := c.tv.weekday
    tvMonth := c.tv.month
    tvYear := c.tv.year }

/-- Whether a request to the PulseSource opens at an event: `ps_req_o` rises, or a response was accepted after which it is
still 1 (spec 41 R87). -/
def requestOpens (before after : CoreState) (tookResponse : Bool) : Bool :=
  after.busy && (!before.busy || tookResponse)

end Sys2Proof.Machine
end

