-- ==== Sys2Proof/Machine/Acquirer.lean ====
section
/-! DEFINITION. The meanings of `ACQUIRE` and `SYNC` (spec 41). -/

namespace Sys2Proof.Machine

/-- `ACQUIRE size` (spec 41 R80). Not accepted while an acquisition runs: the state does not change (spec 46 R136). -/
def execAcquire (size : Nat) (_frame : Frame) (s : State) : Host.Outcome State Fault Refusal :=
  if s.core.busy then .next s
  else if size ≠ 59 then .next (s.withCore (raise .acquireInvalidSize s.core))
  else .next (s.withCore s.core.startAcquisition)

/-- `SYNC` (spec 41 R83): only `no_pulse` is looked at (R85). A response met in any other state is not this step's, and the
state does not change (spec 00 R7, spec 41 R86). -/
def execSync (noPulse : Bool) (_dur : Nat) (s : State) : Host.Outcome State Fault Refusal :=
  match s.core.st with
  | .waitMarker => if noPulse then .next (s.withCore s.core.enterCapture) else .next s
  | .idle => .next s
  | .capture => .next s
  | .complete => .next s
  | .timedOut => .next s

end Sys2Proof.Machine
end

