-- ==== Sys2Proof/Machine/Assembler.lean ====
section
/-! DEFINITION. The meaning of `CAPTURE` (spec 42). -/

namespace Sys2Proof.Machine

/-- Stores one classified bit at `idx` and advances, or completes on the 59th (spec 42 R91, R92). -/
def storeBit (v : Bool) (s : State) : Host.Outcome State Fault Refusal :=
  match memWrite s.core.fb s.core.idx.toNat v with
  | none => .fault .frameCellOutOfRange
  | some fb =>
    if s.core.idx = 58 then .next (s.withCore (s.core.complete fb))
    else .next (s.withCore (s.core.advance fb))

/-- `CAPTURE` (spec 42 R90). A response met in any other state is not this step's, and the state does not change (spec 00 R7). -/
def execCapture (noPulse : Bool) (dur : Nat) (s : State) : Host.Outcome State Fault Refusal :=
  match s.core.st with
  | .capture =>
    match classify s.params noPulse dur with
    | .bit0 => storeBit false s
    | .bit1 => storeBit true s
    | .noPulse => .next (s.withCore (raise (.timeout .noPulse) s.core))
    | .outOfRange => .next (s.withCore (raise (.timeout .outOfRange) s.core))
  | .idle => .next s
  | .waitMarker => .next s
  | .complete => .next s
  | .timedOut => .next s

end Sys2Proof.Machine
end

