-- ==== Sys2Proof/Machine/Classifier.lean ====
section
/-! DEFINITION. The meaning of `CLASSIFY` (spec 40). -/

namespace Sys2Proof.Machine

/-- `CLASSIFY` (spec 40 R70): its value, and no state element written (R73). -/
def execClassify (noPulse : Bool) (dur : Nat) (s : State) : Host.Outcome State Fault Refusal :=
  .next (s.reportValue (.classify (classify s.params noPulse dur)))

end Sys2Proof.Machine
end

