-- ==== Sys2Proof/Machine/Commands.lean ====
section
/-! DEFINITION. The meanings of `DECODE`, `NOP` and `RSVD` (spec 46). -/

namespace Sys2Proof.Machine

/-- `DECODE size, frame` (spec 46 R130): size, then parity, then plausibility (R131). Not accepted while an acquisition runs:
the state does not change (R136). -/
def execDecode (size : Nat) (frame : Frame) (s : State) : Host.Outcome State Fault Refusal :=
  let tv := extractAll frame
  if s.core.busy then .next s
  else if size ≠ 59 then .next (s.withCore (raise .decodeInvalidSize s.core))
  else if !parityOk frame then .next (s.withCore (raise .parityError s.core))
  else if !plausOk tv.day tv.month tv.year then .next (s.withCore (raise .dateError s.core))
  else .next (s.withCore (s.core.publish tv))

/-- `NOP` (spec 46 R134): no state element changes, accepted or not. -/
def execNop (_size : Nat) (_frame : Frame) (s : State) : Host.Outcome State Fault Refusal := .next s

/-- `RSVD` (spec 46 R135): reserved; accepted, and like `NOP` changes nothing (log 13). -/
def execRsvd (_size : Nat) (_frame : Frame) (s : State) : Host.Outcome State Fault Refusal := .next s

end Sys2Proof.Machine
end

