-- ==== Sys2Proof/Machine/Extractor.lean ====
section
/-! DEFINITION. The meanings of the eight `EXTRACT.*` functions (spec 43): the value, and no state element written (R112). -/

namespace Sys2Proof.Machine

/-- `EXTRACT.TF` (spec 43 R102). -/
def execExtractTf (frame : Frame) (s : State) : Host.Outcome State Fault Refusal :=
  .next (s.reportValue (.extractTf (valueTf frame)))

/-- `EXTRACT.A1` (spec 43 R103). -/
def execExtractA1 (frame : Frame) (s : State) : Host.Outcome State Fault Refusal :=
  .next (s.reportValue (.extractA1 (valueA1 frame)))

/-- `EXTRACT.MINUTE` (spec 43 R104). -/
def execExtractMinute (frame : Frame) (s : State) : Host.Outcome State Fault Refusal :=
  .next (s.reportValue (.extractMinute (valueMinute frame)))

/-- `EXTRACT.HOUR` (spec 43 R105). -/
def execExtractHour (frame : Frame) (s : State) : Host.Outcome State Fault Refusal :=
  .next (s.reportValue (.extractHour (valueHour frame)))

/-- `EXTRACT.DAY` (spec 43 R106). -/
def execExtractDay (frame : Frame) (s : State) : Host.Outcome State Fault Refusal :=
  .next (s.reportValue (.extractDay (valueDay frame)))

/-- `EXTRACT.WEEKDAY` (spec 43 R107). -/
def execExtractWeekday (frame : Frame) (s : State) : Host.Outcome State Fault Refusal :=
  .next (s.reportValue (.extractWeekday (valueWeekday frame)))

/-- `EXTRACT.MONTH` (spec 43 R108). -/
def execExtractMonth (frame : Frame) (s : State) : Host.Outcome State Fault Refusal :=
  .next (s.reportValue (.extractMonth (valueMonth frame)))

/-- `EXTRACT.YEAR` (spec 43 R109). -/
def execExtractYear (frame : Frame) (s : State) : Host.Outcome State Fault Refusal :=
  .next (s.reportValue (.extractYear (valueYear frame)))

end Sys2Proof.Machine
end

