-- ==== Sys2Proof/Machine/Validator.lean ====
section
/-! DEFINITION. The meanings of the three `PARITY.*` functions and of `PLAUS` (spec 44, spec 45): the verdict, and no state
element written (spec 44 R121, spec 45 R128). -/

namespace Sys2Proof.Machine

/-- `PARITY.MINUTE` (spec 44 R115). -/
def execParityMinute (frame : Frame) (s : State) : Host.Outcome State Fault Refusal :=
  .next (s.reportValue (.parityMinute (parityMinuteOk frame)))

/-- `PARITY.HOUR` (spec 44 R116). -/
def execParityHour (frame : Frame) (s : State) : Host.Outcome State Fault Refusal :=
  .next (s.reportValue (.parityHour (parityHourOk frame)))

/-- `PARITY.DATE` (spec 44 R117). -/
def execParityDate (frame : Frame) (s : State) : Host.Outcome State Fault Refusal :=
  .next (s.reportValue (.parityDate (parityDateOk frame)))

/-- `PLAUS` (spec 45 R125). -/
def execPlaus (day : BitVec 6) (month : BitVec 5) (year : BitVec 8) (s : State) : Host.Outcome State Fault Refusal :=
  .next (s.reportValue (.plaus (plausOk day month year)))

end Sys2Proof.Machine
end

