-- ==== Sys2Proof/Machine/Dispatch.lean ====
section
/-! DEFINITION. From an operation to its meaning, one arm per constructor of `Instr`. -/

namespace Sys2Proof.Machine

def exec (i : Instr) (s : State) : Host.Outcome State Fault Refusal :=
  match i with
  | .classify noPulse dur => Sys2Proof.Machine.execClassify noPulse dur s
  | .acquire size frame => Sys2Proof.Machine.execAcquire size frame s
  | .sync noPulse dur => Sys2Proof.Machine.execSync noPulse dur s
  | .capture noPulse dur => Sys2Proof.Machine.execCapture noPulse dur s
  | .extractTf frame => Sys2Proof.Machine.execExtractTf frame s
  | .extractA1 frame => Sys2Proof.Machine.execExtractA1 frame s
  | .extractMinute frame => Sys2Proof.Machine.execExtractMinute frame s
  | .extractHour frame => Sys2Proof.Machine.execExtractHour frame s
  | .extractDay frame => Sys2Proof.Machine.execExtractDay frame s
  | .extractWeekday frame => Sys2Proof.Machine.execExtractWeekday frame s
  | .extractMonth frame => Sys2Proof.Machine.execExtractMonth frame s
  | .extractYear frame => Sys2Proof.Machine.execExtractYear frame s
  | .parityMinute frame => Sys2Proof.Machine.execParityMinute frame s
  | .parityHour frame => Sys2Proof.Machine.execParityHour frame s
  | .parityDate frame => Sys2Proof.Machine.execParityDate frame s
  | .plaus day month year => Sys2Proof.Machine.execPlaus day month year s
  | .decode size frame => Sys2Proof.Machine.execDecode size frame s
  | .nop size frame => Sys2Proof.Machine.execNop size frame s
  | .rsvd size frame => Sys2Proof.Machine.execRsvd size frame s

end Sys2Proof.Machine
end

