-- ==== Sys2Proof/Machine/Fetch.lean ====
section
/-! DEFINITION. From an input to the operation it selects: the signal-level binding (spec 70 R170 to R172), which events are
enabled (spec 00 R7, spec 46 R136, spec 41 R86), and running what was fetched. -/

namespace Sys2Proof.Machine

/-- The bytes of a command word (spec 30 R53, log 6). A port of `SIZE_W` bits carries no size that does not fit it: then
there is no word, and no bytes (log 12). -/
def cmdBytes (w : Widths) (op : BitVec 2) (size : Nat) (frame : Frame) : List Byte :=
  if sizeFits w size then leBytes (Format.cw.bytes w) (packCW w op size frame) else []

/-- The bytes of a response word (spec 30 R55, log 6); none for a duration that does not fit its `DUR_W` bits (log 12). -/
def rspBytes (w : Widths) (noPulse : Bool) (dur : Nat) : List Byte :=
  if durFits w dur then leBytes (Format.rw.bytes w) (packRW w noPulse dur) else []

/-- The event of one rising clock edge, if any (spec 70 R170): `Reset` first, then `Cmd` if offered and `cmd_ready_o`, then
`Rsp` if delivered and `ps_req_o`, else none. -/
def edgeEvent (w : Widths) (c : CoreState) (p : Ports) : Option Event :=
  if p.rst then some .reset
  else if p.cmdValid && !c.busy then some (.present .cmd (cmdBytes w p.cmdOp p.cmdSize p.cmdFrame))
  else if p.psValid && c.busy then some (.present .rsp (rspBytes w p.psNoPulse p.psDuration))
  else none

/-- The event of one input, if any. -/
def inputEvent (w : Widths) (c : CoreState) (i : Input) : Option Event :=
  match i with
  | .edge p => edgeEvent w c p
  | .event e => some e

/-- What a word presented at a port selects (spec 30 section 5). A command is enabled iff `busy = 0` (spec 46 R136); a
response is a `SYNC` or a `CAPTURE` step by `st` and is not accepted otherwise (spec 41 R86). -/
def select (c : CoreState) (port : Port) : Option Selector :=
  match port with
  | .cmd => if c.busy then none else some .cmd
  | .rsp =>
    match c.st with
    | .idle => none
    | .waitMarker => some .sync
    | .capture => some .capture
    | .complete => none
    | .timedOut => none
  | .call fn => some (.call fn)

/-- What an input comes to in a state: nothing (no event, or an event that is not enabled), `Reset`, or a packet. -/
inductive Fetched where
  | nothing
  | reset
  | packet (p : Packet)
  deriving DecidableEq, Repr

/-- Fetches an input, in a block of the given widths. -/
def fetch (w : Widths) (c : CoreState) (i : Input) : Fetched :=
  match inputEvent w c i with
  | none => .nothing
  | some .reset => .reset
  | some (.present port bytes) =>
    match select c port with
    | none => .nothing
    | some sel => .packet { sel := sel, bytes := bytes }

/-- Runs what was fetched. Nothing fetched: the state holds (spec 70 R170, spec 00 R7). -/
def runFetched (f : Fetched) (s : State) : Host.Outcome State Fault Refusal :=
  match f with
  | .nothing => .next s
  | .reset => .next s.applyReset
  | .packet p =>
    match Sys2Proof.decode s.params.widths p with
    | .ok i => exec i s
    | .error e => .refused (.illFormedWord e)

/-- One step: the first input is taken and run. With no input there is no event, and the state holds (spec 70 R170). -/
def stepInput (s : State) : Host.Outcome State Fault Refusal :=
  match s.inputs with
  | [] => .next s
  | i :: _ => runFetched (fetch s.params.widths s.core i) s.dropInput

/-- The port at which a packet's word arrives. -/
def portOf (sel : Selector) : Port :=
  match sel with
  | .cmd => .cmd
  | .sync => .rsp
  | .capture => .rsp
  | .call fn => .call fn

/-- The `st` in which a selector's operation is accepted, as near to `c` as it gets: `c`'s own where it is enabled already. -/
def enabledSt (c : CoreState) (sel : Selector) : AcqState :=
  match sel with
  | .cmd => if c.busy then .idle else c.st
  | .sync => .waitMarker
  | .capture => .capture
  | .call _ => c.st

/-- Places a packet as the next input, in a state that accepts it (log 2, 8). -/
def placePacket (s : State) (p : Packet) : State :=
  { s with
    core := { s.core with st := enabledSt s.core p.sel }
    inputs := .event (.present (portOf p.sel) p.bytes) :: s.inputs }

/-- Places a word of the opcode table as the next input; a word of no format is placed nowhere. -/
def placeTableWord (s : State) (nbits w : Nat) : State :=
  match tablePacket s.params.widths nbits w with
  | none => s
  | some p => placePacket s p

end Sys2Proof.Machine
end

