-- ==== Sys2Proof/Machine/Step.lean ====
section
/-! DEFINITION. One step of the machine, and where a word stands for the next step to fetch it. -/

namespace Sys2Proof.Machine

/-- One step: the next input, if there is one, and what it comes to. -/
def step (s : State) : Host.Outcome State Fault Refusal := stepInput s

/-- `s` with a word of the opcode table as its next input, in a state that accepts it. -/
def State.withFetchWord (s : State) (nbits w : Nat) : State := placeTableWord s nbits w

end Sys2Proof.Machine
end

