-- ==== Sys2Proof/Machine/Line.lean ====
section
/-! DEFINITION. The line language of spec 30 R63 and its pseudo-operations (R64): one event per line. -/

namespace Sys2Proof.Machine

/-- A line of a program (spec 30 R63). -/
inductive Line where
  | reset
  | nop
  | acquire (size : Nat)
  | decode (size : Nat) (frame : Frame)
  | rsvd
  | p (dur : Nat)
  | np
  deriving DecidableEq, Repr

namespace Line

/-- The event a line stands for, in a block of the given widths (spec 30 R63). -/
def event (w : Widths) (l : Line) : Event :=
  match l with
  | .reset => .reset
  | .nop => .present .cmd (cmdBytes w OP_NOP 0 0)
  | .acquire size => .present .cmd (cmdBytes w OP_ACQUIRE size 0)
  | .decode size frame => .present .cmd (cmdBytes w OP_DECODE size frame)
  | .rsvd => .present .cmd (cmdBytes w OP_RSVD 0 0)
  | .p dur => .present .rsp (rspBytes w false dur)
  | .np => .present .rsp (rspBytes w true 0)

/-- The inputs of a program: its lines' events, top to bottom. -/
def program (w : Widths) (ls : List Line) : List Input := ls.map fun l => .event (l.event w)

/-- Whether a line's event is enabled; a line met where it is not "is an error of the program, not an event" (spec 30 R63). -/
def enabled (c : CoreState) (l : Line) : Bool :=
  match l with
  | .reset => true
  | .nop => !c.busy
  | .acquire _ => !c.busy
  | .decode _ _ => !c.busy
  | .rsvd => !c.busy
  | .p _ => c.busy
  | .np => c.busy

/-- `ACQ` (spec 30 R64). -/
def acq : Line := .acquire 59

/-- `DEC <frame>` (spec 30 R64). -/
def dec (frame : Frame) : Line := .decode 59 frame

/-- `MARK` (spec 30 R64). -/
def mark : Line := .np

/-- `B0` with the duration it is sent as: any one in `(LOW_MIN, BIT0_MAX]` will do (spec 30 R64). -/
def b0 (dur : Nat) : Line := .p dur

/-- `B1` with the duration it is sent as: any one in `(BIT0_MAX, BIT1_MAX]` will do (spec 30 R64). -/
def b1 (dur : Nat) : Line := .p dur

/-- `BITS`: one `B0` per 0 and one `B1` per 1, left to right (spec 30 R64). -/
def bits (d0 d1 : Nat) (bs : List Bool) : List Line := bs.map fun b => if b then b1 d1 else b0 d0

end Line

end Sys2Proof.Machine
end

