-- ==== Sys2Proof/Safety.lean ====
section
/-! DEFINITION. What counts as a safe state, in the terms the claims use: the invariants of spec 10 R28, a step that does not
stop, and when a run is over (spec 70 R164). -/

namespace Sys2Proof.Machine

/-- The invariants I2 to I12 of spec 10 R28. I1 and I13 hold by the types (log 9). -/
structure Inv (c : CoreState) : Prop where
  idxBound : c.idx.toNat ≤ 59
  idle : c.st = .idle → c.idx = 0
  waitMarker : c.st = .waitMarker → c.idx = 0 ∧ c.acqResult = .none
  capture : c.st = .capture → c.idx.toNat ≤ 58 ∧ c.acqResult = .none
  complete : c.st = .complete → c.idx = 59 ∧ (c.acqResult = .success ∨ c.acqResult = .invalidSize)
  timedOut : c.st = .timedOut → c.idx.toNat ≤ 58 ∧ (c.acqResult = .timeout ∨ c.acqResult = .invalidSize)
  cause : c.acqCause ≠ .none ↔ c.acqResult = .timeout
  tvZero : c.decResult ≠ .success → c.tv = TimeValue.zero
  tvNonzero : c.decResult = .success → c.tv.day ≠ 0 ∧ c.tv.month ≠ 0 ∧ c.tv.year ≠ 0
  success : c.acqResult = .success → c.st = .complete
  timeout : c.acqResult = .timeout → c.st = .timedOut

/-- The machine does not fault. -/
def StepsSafely (s : State) : Prop := ∀ f, step s ≠ .fault f

/-- A run is over: no input is left and no acquisition runs, so its final state is a result (spec 70 R164). -/
def RunOver (s : State) : Prop := s.inputs = [] ∧ s.core.busy = false

end Sys2Proof.Machine
end

