-- ==== Sys2Proof/Certificates/Slice0/Obligations.lean ====
section
/-! DEFINITION. The statements for the provers. Each `Obligations.<Name>` says what its name says; the rule it formalises
stands in its docstring and in OBLIGATIONS.json. -/

/-! ## The words of the statements

Written from the rules, beside the model's own functions and not from them. -/

namespace Sys2Proof.Claims

open Sys2Proof.Machine

/-- `F[k]` as a number. -/
def bit (f : Frame) (k : Nat) : Nat := (f.getLsbD k).toNat

/-- The number of 1 bits among the `n` positions from `lo`. -/
def ones (f : Frame) (lo n : Nat) : Nat := ((List.range n).map fun i => bit f (lo + i)).sum

/-- The number of positions, among the `n` from `lo`, where two frames differ. -/
def flips (f g : Frame) (lo n : Nat) : Nat := ones (f ^^^ g) lo n

/-- The sums of spec 43 R104 to R109. -/
def minuteSum (f : Frame) : Nat :=
  bit f 21 + 2 * bit f 22 + 4 * bit f 23 + 8 * bit f 24 + 10 * bit f 25 + 20 * bit f 26 + 40 * bit f 27
def hourSum (f : Frame) : Nat :=
  bit f 29 + 2 * bit f 30 + 4 * bit f 31 + 8 * bit f 32 + 10 * bit f 33 + 20 * bit f 34
def daySum (f : Frame) : Nat :=
  bit f 36 + 2 * bit f 37 + 4 * bit f 38 + 8 * bit f 39 + 10 * bit f 40 + 20 * bit f 41
def weekdaySum (f : Frame) : Nat := bit f 42 + 2 * bit f 43 + 4 * bit f 44
def monthSum (f : Frame) : Nat := bit f 45 + 2 * bit f 46 + 4 * bit f 47 + 8 * bit f 48 + 10 * bit f 49
def yearSum (f : Frame) : Nat :=
  bit f 50 + 2 * bit f 51 + 4 * bit f 52 + 8 * bit f 53 + 10 * bit f 54 + 20 * bit f 55 + 40 * bit f 56 + 80 * bit f 57

/-- The TimeValue of a frame by those sums. -/
def timeValue (f : Frame) : TimeValue :=
  { transmitterFault := BitVec.ofNat 1 (bit f 15)
    a1 := BitVec.ofNat 1 (bit f 16)
    minute := BitVec.ofNat 7 (minuteSum f)
    hour := BitVec.ofNat 6 (hourSum f)
    day := BitVec.ofNat 6 (daySum f)
    weekday := BitVec.ofNat 3 (weekdaySum f)
    month := BitVec.ofNat 5 (monthSum f)
    year := BitVec.ofNat 8 (yearSum f) }

/-- The three checks as even counts of ones, data bits and parity bit together (spec 44, "Equivalent statement"). -/
abbrev ParityHolds (f : Frame) : Prop := ones f 21 8 % 2 = 0 ∧ ones f 29 7 % 2 = 0 ∧ ones f 36 23 % 2 = 0

/-- Day, month and year are not zero. -/
abbrev DateHolds (f : Frame) : Prop := daySum f ≠ 0 ∧ monthSum f ≠ 0 ∧ yearSum f ≠ 0

/-- A response is the bit `b` under the source's intervals (spec 40 R70). -/
abbrev IsBit (p : Params) (noPulse : Bool) (dur : Nat) (b : Bool) : Prop :=
  noPulse = false ∧
    ((b = false ∧ p.lowMin < dur ∧ dur ≤ p.bit0Max) ∨ (b = true ∧ p.bit0Max < dur ∧ dur ≤ p.bit1Max))

/-- A response is no bit, and why (spec 40 R70, R71, spec 60 R147). -/
abbrev IsFailure (p : Params) (noPulse : Bool) (dur : Nat) (cause : AcqCause) : Prop :=
  (noPulse = true ∧ cause = .noPulse) ∨
    (noPulse = false ∧ (dur ≤ p.lowMin ∨ p.bit1Max < dur) ∧ cause = .outOfRange)

/-- The command word of an opcode, `op` above `size` above `frame` (spec 30 R53), in whole bytes. -/
def commandWord (w : Widths) (op size : Nat) (frame : Frame) : Packet :=
  { sel := .cmd
    bytes := leBytes ((w.sizeW + 61 + 7) / 8) (op * 2 ^ (w.sizeW + 59) + size * 2 ^ 59 + frame.toNat) }

/-- A response as an input of a block of the given widths. -/
def response (w : Widths) (noPulse : Bool) (dur : Nat) : Input := .event (.present .rsp (rspBytes w noPulse dur))

/-- Pulses of the given durations as inputs. -/
def pulses (w : Widths) (ds : List Nat) : List Input := ds.map fun d => response w false d

/-- Each duration is its bit. -/
def AreBits (p : Params) (ds : List Nat) (bs : List Bool) : Prop :=
  ds.length = bs.length ∧ ∀ k (hd : k < ds.length) (hb : k < bs.length), IsBit p false ds[k] bs[k]

/-- The operations a host commands. -/
def commands (size : Nat) (frame : Frame) : List Instr :=
  [.nop size frame, .acquire size frame, .decode size frame, .rsvd size frame]

/-- The pure functions, on given operands. -/
def pureFunctions (noPulse : Bool) (dur : Nat) (f : Frame) (day : BitVec 6) (month : BitVec 5) (year : BitVec 8) :
    List Instr :=
  [.classify noPulse dur, .extractTf f, .extractA1 f, .extractMinute f, .extractHour f, .extractDay f, .extractWeekday f,
    .extractMonth f, .extractYear f, .parityMinute f, .parityHour f, .parityDate f, .plaus day month year]

/-- The core state of spec 10 R27, field by field. -/
def resetCore : CoreState :=
  { st := .idle, idx := 0, fb := 0, acqResult := .none, acqCause := .none, decResult := .none
    tv := { transmitterFault := 0, a1 := 0, minute := 0, hour := 0, day := 0, weekday := 0, month := 0, year := 0 } }

/-- What a `DECODE` of a frame records, by the order of spec 46 R131. -/
abbrev DecodeRecords (size : Nat) (f : Frame) (r : DecResult) (tv : TimeValue) : Prop :=
  (size ≠ 59 → r = .invalidSize ∧ tv = TimeValue.zero) ∧
  (size = 59 → ¬ ParityHolds f → r = .parityError ∧ tv = TimeValue.zero) ∧
  (size = 59 → ParityHolds f → ¬ DateHolds f → r = .dateError ∧ tv = TimeValue.zero) ∧
  (size = 59 → ParityHolds f → DateHolds f → r = .success ∧ tv = timeValue f)

/-- The next input of `s` is fetched and decoded to the operation `i`. -/
abbrev Runs (s : State) (i : Instr) : Prop :=
  ∃ inp p, s.inputs.head? = some inp ∧ fetch s.params.widths s.core inp = .packet p ∧ decode s.params.widths p = .ok i

/-- The next input of `s` is `Reset`. -/
abbrev Resets (s : State) : Prop := ∃ inp, s.inputs.head? = some inp ∧ fetch s.params.widths s.core inp = .reset

/-- Two frames agree at a position. -/
abbrev AgreeAt (f g : Frame) (k : Nat) : Prop := f.getLsbD k = g.getLsbD k

end Sys2Proof.Claims

section

open Sys2Proof Sys2Proof.Machine Sys2Proof.Claims

/-! ## Reset -/

/-- spec 10 R27: every element and the outputs that follow, from every state. -/
def Obligations.ResetEventRestoresEveryElement : Prop :=
  ∀ (s : State) (rest : List Input), s.inputs = .event .reset :: rest →
    ∃ t, step s = .next t ∧ t.core = resetCore ∧ t.params = s.params ∧ t.inputs = rest ∧
      (outputs t.params t.core).busy = false ∧ (outputs t.params t.core).cmdReady = true ∧
      (outputs t.params t.core).psReq = false ∧ (outputs t.params t.core).frameValid = false ∧
      (outputs t.params t.core).frame = 0 ∧ (outputs t.params t.core).tvValid = false

/-- spec 70 R160: `Reset` wins at an edge, whatever else the ports show and whatever the state. -/
def Obligations.ResetEdgeWinsOverOtherInputs : Prop :=
  ∀ (s : State) (p : Ports) (rest : List Input), s.inputs = .edge p :: rest → p.rst = true →
    ∃ t, step s = .next t ∧ t.core = resetCore ∧ t.params = s.params ∧ t.inputs = rest

/-- The state after reset: the core as spec 10 R27 gives it, the invariants of R28 hold in it, and the block's widths are the
defaults of spec 00 R4. -/
def Obligations.ResetStateMeetsTheInvariants : Prop :=
  State.reset.core = resetCore ∧ Inv State.reset.core ∧ State.reset.params.durW = 32 ∧ State.reset.params.sizeW = 8

/-- spec 70 R162: Reset abandons an acquisition, and a response delivered afterwards is not accepted. -/
def Obligations.ResetAbandonsAnAcquisition : Prop :=
  ∀ (s : State) (noPulse : Bool) (dur : Nat) (rest : List Input), s.core.busy = true →
    s.inputs = .event .reset :: response s.params.widths noPulse dur :: rest →
      ∃ t, Host.Core.run Sys2Proof.core 2 s = .next t ∧ t.core = resetCore ∧ t.inputs = rest ∧
        (outputs t.params t.core).psReq = false ∧ t.core.acqResult = .none

/-! ## The step -/

/-- A step runs the operation its input decodes to, after the input is taken from the list. -/
def Obligations.StepRunsTheDecodedInstruction : Prop :=
  ∀ (s : State) (inp : Input) (rest : List Input) (p : Packet) (i : Instr),
    s.inputs = inp :: rest → fetch s.params.widths s.core inp = .packet p → decode s.params.widths p = .ok i →
      step s = exec i { s with inputs := rest }

/-- spec 70 R170: at most one event per rising edge, in this order, and with none the state holds. The values on the two
ports whose width is a parameter fit it. -/
def Obligations.EdgeRunsAtMostOneEvent : Prop :=
  ∀ (s : State) (p : Ports) (rest : List Input), s.inputs = .edge p :: rest → p.rst = false →
    (p.cmdValid = true → s.core.busy = false → p.cmdSize < 2 ^ s.params.sizeW →
      (p.cmdOp = 0b00 → step s = exec (.nop p.cmdSize p.cmdFrame) { s with inputs := rest }) ∧
      (p.cmdOp = 0b01 → step s = exec (.acquire p.cmdSize p.cmdFrame) { s with inputs := rest }) ∧
      (p.cmdOp = 0b10 → step s = exec (.decode p.cmdSize p.cmdFrame) { s with inputs := rest }) ∧
      (p.cmdOp = 0b11 → step s = exec (.rsvd p.cmdSize p.cmdFrame) { s with inputs := rest })) ∧
    (p.psValid = true → s.core.st = .waitMarker → p.psDuration < 2 ^ s.params.durW →
      step s = exec (.sync p.psNoPulse p.psDuration) { s with inputs := rest }) ∧
    (p.psValid = true → s.core.st = .capture → p.psDuration < 2 ^ s.params.durW →
      step s = exec (.capture p.psNoPulse p.psDuration) { s with inputs := rest }) ∧
    (s.core.busy = false → p.cmdValid = false → step s = .next { s with inputs := rest }) ∧
    (s.core.busy = true → p.psValid = false → step s = .next { s with inputs := rest })

/-- A value wider than the port it is offered on is no value of that port: an accepted command or response with one is refused
by name, at an edge and as a line (the model's stop, log 12). -/
def Obligations.ValuesTooWideForTheirPortAreRefused : Prop :=
  ∀ (s : State) (p : Ports) (rest : List Input),
    (s.inputs = .edge p :: rest → p.rst = false → p.cmdValid = true → s.core.busy = false →
      2 ^ s.params.sizeW ≤ p.cmdSize → step s = .refused (.illFormedWord .wrongLength)) ∧
    (s.inputs = .edge p :: rest → p.rst = false → p.psValid = true → s.core.busy = true →
      2 ^ s.params.durW ≤ p.psDuration → step s = .refused (.illFormedWord .wrongLength)) ∧
    (∀ (l : Line) (size : Nat), (l = .acquire size ∨ ∃ frame, l = .decode size frame) →
      s.inputs = .event (l.event s.params.widths) :: rest → s.core.busy = false →
      2 ^ s.params.sizeW ≤ size → step s = .refused (.illFormedWord .wrongLength)) ∧
    (∀ dur, s.inputs = .event ((Line.p dur).event s.params.widths) :: rest → s.core.busy = true →
      2 ^ s.params.durW ≤ dur → step s = .refused (.illFormedWord .wrongLength))

/-- The model's reading of "otherwise none, and the state holds" (spec 70 R170) with no input left (log 2). -/
def Obligations.NoInputMeansNoChange : Prop :=
  ∀ s : State, s.inputs = [] → step s = .next s

/-- spec 20 R32, R43: an input is consumed once, in order; spec 10 R25: no step writes a parameter. -/
def Obligations.StepConsumesOneInputAndKeepsParameters : Prop :=
  ∀ s t : State, step s = .next t → t.inputs = s.inputs.tail ∧ t.params = s.params

/-- A table word that a block of the state's widths reads as `i` is what the next step runs, from every state (the model's
placement, log 8): at most `st` is changed, to the one of `enabledSt`, in which the block accepts the operation. -/
def Obligations.FetchWordRunsTheTableWord : Prop :=
  (∀ (s : State) (nbits w : Nat) (i : Instr), decodeTableWordAt s.params.widths nbits w = some i →
    step (s.withFetchWord nbits w) = exec i { s with core := { s.core with st := enabledSt s.core (selectorOf i) } } ∧
    select { s.core with st := enabledSt s.core (selectorOf i) } (portOf (selectorOf i)) = some (selectorOf i) ∧
    (select s.core (portOf (selectorOf i)) = some (selectorOf i) → enabledSt s.core (selectorOf i) = s.core.st)) ∧
  (∀ nbits w : Nat, decodeTableWord nbits w = decodeTableWordAt { durW := 32, sizeW := 8 } nbits w)

/-! ## Encoding -/

/-- Decoding what the encoder writes gives the operation back, with every operand at every value that fits, at every width
of the two parameters (spec 00 R4). -/
def Obligations.DecodeOfEncodeIsTheInstruction : Prop :=
  ∀ (w : Widths) (i : Instr), i.wf w = true → decode w (encode w i) = .ok i

/-- Each word has one meaning: an operation read from a packet is well formed and encodes to that packet. -/
def Obligations.EncodeOfDecodeIsThePacket : Prop :=
  ∀ (w : Widths) (p : Packet) (i : Instr), decode w p = .ok i → i.wf w = true ∧ encode w i = p

/-- The decoder refuses exactly the ill-formed packets, by name; no well-formed one is refused (spec 30 R60). -/
def Obligations.DecoderRefusesExactlyIllFormedPackets : Prop :=
  ∀ (w : Widths) (p : Packet),
    (p.wf w = true ↔ ∃ i, decode w p = .ok i) ∧
    (decode w p = .error .wrongLength ↔ p.bytes.length ≠ p.sel.format.bytes w) ∧
    (decode w p = .error .paddingSet ↔
      p.bytes.length = p.sel.format.bytes w ∧ 2 ^ p.sel.format.width w ≤ leValue p.bytes)

/-- Command words written out from the spec's encoding (spec 30 R53, R54, R63) decode to their operations, and so do two
response words (R55) to `SYNC`: that a response word of the table stands for `SYNC` is the model's choice (log 8), since
"`RW` selects no operation by its bits". A sanity check. -/
def Obligations.SpecWordsDecode : Prop :=
  decodeTableWord 72 0x9d800000000000000 = some (.acquire 59 0) ∧
  decodeTableWord 72 0xff800000000000000 = some (.acquire 255 0) ∧
  decodeTableWord 72 0x11dc9a290256540000 = some (.decode 59 0x49a290256540000) ∧
  decodeTableWord 72 0x01dc9a290256540000 = some (.nop 59 0x49a290256540000) ∧
  decodeTableWord 72 0x180000000000000000 = some (.rsvd 0 0) ∧
  decodeTableWord 40 0x0000186a0 = some (.sync false 100000) ∧
  decodeTableWord 40 0x1000186a0 = some (.sync true 100000)

/-! ## The classifier -/

/-- spec 40 R70: the five cases by intervals, the code, and no state element written. -/
def Obligations.ClassifyFollowsTheIntervals : Prop :=
  ∀ (s : State) (noPulse : Bool) (dur : Nat), ∃ c : Cls,
    exec (.classify noPulse dur) s = .next { s with fnValue := .classify c } ∧
    (noPulse = true → c.code = 2) ∧
    (noPulse = false → dur ≤ s.params.lowMin → c.code = 3) ∧
    (noPulse = false → s.params.lowMin < dur → dur ≤ s.params.bit0Max → c.code = 0) ∧
    (noPulse = false → s.params.bit0Max < dur → dur ≤ s.params.bit1Max → c.code = 1) ∧
    (noPulse = false → s.params.bit1Max < dur → c.code = 3)

/-- spec 40 R72: each upper bound is included, each lower bound is excluded, at every `DUR_W`. -/
def Obligations.ClassifyAtTheBoundaries : Prop :=
  ∀ p : Params,
    classify p false 0 = .outOfRange ∧
    classify p false p.lowMin = .outOfRange ∧
    classify p false (p.lowMin + 1) = .bit0 ∧
    classify p false p.bit0Max = .bit0 ∧
    classify p false (p.bit0Max + 1) = .bit1 ∧
    classify p false p.bit1Max = .bit1 ∧
    classify p false (p.bit1Max + 1) = .outOfRange ∧
    (p.bit1Max < 2 ^ p.durW - 1 → classify p false (2 ^ p.durW - 1) = .outOfRange) ∧
    (p.bit1Max = 2 ^ p.durW - 1 → classify p false (2 ^ p.durW - 1) = .bit1)

/-! ## The frame acquirer -/

/-- spec 41 R80: the encoding, when it is enabled, and the two cases of an accepted `ACQUIRE` with everything written and
everything left. -/
def Obligations.AcquireStartsOrRejects : Prop :=
  ∀ (s : State) (size : Nat) (frame : Frame),
    (size < 2 ^ s.params.sizeW →
      decode s.params.widths (commandWord s.params.widths 1 size frame) = .ok (.acquire size frame)) ∧
    (select s.core .cmd = some .cmd ↔ s.core.st = .idle ∨ s.core.st = .complete ∨ s.core.st = .timedOut) ∧
    (s.core.busy = true → exec (.acquire size frame) s = .next s) ∧
    (s.core.busy = false → size = 59 → exec (.acquire size frame) s = .next { s with core :=
      { s.core with acqCause := .none, acqResult := .none, idx := 0, st := .waitMarker } }) ∧
    (s.core.busy = false → size ≠ 59 → exec (.acquire size frame) s = .next { s with core :=
      { s.core with acqCause := .none, acqResult := .invalidSize } })

/-- spec 41 R81: a wrong size makes no request and leaves `st`, `idx`, `FB`, `frame_valid_o` and `frame_o` as they were. -/
def Obligations.AcquireWrongSizeLeavesTheFrame : Prop :=
  ∀ (s : State) (size : Nat) (frame : Frame), s.core.busy = false → size ≠ 59 →
    ∃ t, exec (.acquire size frame) s = .next t ∧
      t.core.st = s.core.st ∧ t.core.idx = s.core.idx ∧ t.core.fb = s.core.fb ∧
      (outputs t.params t.core).psReq = false ∧
      (outputs t.params t.core).frameValid = (outputs s.params s.core).frameValid ∧
      (outputs t.params t.core).frame = (outputs s.params s.core).frame ∧
      t.core.acqResult = .invalidSize

/-- spec 41 R82: an accepted `ACQUIRE 59` hides the earlier frame and returns the result to `NONE`; the cells stay. -/
def Obligations.AcquireHidesTheEarlierFrame : Prop :=
  ∀ (s : State) (frame : Frame), s.core.busy = false →
    ∃ t, exec (.acquire 59 frame) s = .next t ∧ t.core.st = .waitMarker ∧
      (outputs t.params t.core).frameValid = false ∧ (outputs t.params t.core).frame = 0 ∧
      t.core.acqResult = .none ∧ t.core.fb = s.core.fb

/-- spec 41 R83, R85: in `WAIT_MARKER` only `no_pulse` matters; the marker moves to `CAPTURE` and nothing else changes. -/
def Obligations.SyncLooksOnlyAtNoPulse : Prop :=
  ∀ (s : State) (dur : Nat), s.core.st = .waitMarker →
    exec (.sync true dur) s = .next { s with core := { s.core with st := .capture } } ∧
    exec (.sync false dur) s = .next s ∧
    select s.core .rsp = some .sync

/-- spec 41 R84: the wait goes through any number of pulses of any lengths that `DUR_W` bits hold. -/
def Obligations.WaitHasNoBound : Prop :=
  ∀ (ds : List Nat) (s : State) (rest : List Input), s.core.st = .waitMarker → (∀ d ∈ ds, d < 2 ^ s.params.durW) →
    s.inputs = pulses s.params.widths ds ++ rest →
      Host.Core.run Sys2Proof.core ds.length s = .next { s with inputs := rest }

/-- spec 41 R86: a response offered while `busy = 0` is not accepted, as an event or at an edge. -/
def Obligations.ResponsesOutsideAnAcquisitionAreLost : Prop :=
  ∀ (s : State) (noPulse : Bool) (dur : Nat) (p : Ports) (rest : List Input), s.core.busy = false →
    (outputs s.params s.core).psReq = false ∧
    exec (.sync noPulse dur) s = .next s ∧ exec (.capture noPulse dur) s = .next s ∧
    (s.inputs = response s.params.widths noPulse dur :: rest → step s = .next { s with inputs := rest }) ∧
    (s.inputs = .edge p :: rest → p.rst = false → p.cmdValid = false → step s = .next { s with inputs := rest })

/-! ## The frame assembler -/

/-- spec 42 R91: a bit that is not the last is stored at `idx`, one cell and no other, and the next request opens. -/
def Obligations.CaptureStoresABit : Prop :=
  ∀ (s : State) (noPulse : Bool) (dur : Nat) (b : Bool),
    s.core.st = .capture → s.core.idx.toNat ≤ 57 → IsBit s.params noPulse dur b →
      ∃ t, exec (.capture noPulse dur) s = .next t ∧
        t.core.fb.getLsbD s.core.idx.toNat = b ∧
        (∀ k, k ≠ s.core.idx.toNat → t.core.fb.getLsbD k = s.core.fb.getLsbD k) ∧
        t.core.idx.toNat = s.core.idx.toNat + 1 ∧ t.core.st = .capture ∧
        t.core.acqResult = s.core.acqResult ∧ t.core.acqCause = s.core.acqCause ∧
        t.core.decResult = s.core.decResult ∧ t.core.tv = s.core.tv ∧
        t.params = s.params ∧ t.inputs = s.inputs ∧ t.fnValue = s.fnValue ∧
        (outputs t.params t.core).psReq = true ∧ requestOpens s.core t.core true = true

/-- spec 42 R92: the 59th bit completes the frame, in one event. -/
def Obligations.CaptureCompletesTheFrame : Prop :=
  ∀ (s : State) (noPulse : Bool) (dur : Nat) (b : Bool),
    s.core.st = .capture → s.core.idx = 58 → IsBit s.params noPulse dur b →
      ∃ t, exec (.capture noPulse dur) s = .next t ∧
        t.core.fb.getLsbD 58 = b ∧ (∀ k, k ≠ 58 → t.core.fb.getLsbD k = s.core.fb.getLsbD k) ∧
        t.core.idx = 59 ∧ t.core.st = .complete ∧ t.core.acqResult = .success ∧
        t.core.acqCause = s.core.acqCause ∧ t.core.decResult = s.core.decResult ∧ t.core.tv = s.core.tv ∧
        t.params = s.params ∧ t.inputs = s.inputs ∧ t.fnValue = s.fnValue ∧
        (outputs t.params t.core).psReq = false ∧ requestOpens s.core t.core true = false ∧
        (outputs t.params t.core).frameValid = true ∧ (outputs t.params t.core).frame = t.core.fb

/-- spec 42 R93: a response that is no bit ends the acquisition, at any `idx`; only `st`, `acq_result`, `acq_cause` change. -/
def Obligations.CaptureFailureTimesOut : Prop :=
  ∀ (s : State) (noPulse : Bool) (dur : Nat) (cause : AcqCause),
    s.core.st = .capture → IsFailure s.params noPulse dur cause →
      ∃ t, exec (.capture noPulse dur) s = .next t ∧
        t = { s with core := { s.core with st := .timedOut, acqResult := .timeout, acqCause := cause } } ∧
        (outputs t.params t.core).busy = false ∧ (outputs t.params t.core).psReq = false ∧
        (outputs t.params t.core).frameValid = false ∧ (outputs t.params t.core).frame = 0

/-- The machine's one fault: a `CAPTURE` step with a bit to store and `idx` beyond the frame, and nothing else (log 11). -/
def Obligations.FaultOnlyBeyondTheFrame : Prop :=
  ∀ (i : Instr) (s : State) (f : Fault), exec i s = .fault f ↔
    f = .frameCellOutOfRange ∧ s.core.st = .capture ∧ 59 ≤ s.core.idx.toNat ∧
      ∃ noPulse dur b, i = .capture noPulse dur ∧ IsBit s.params noPulse dur b

/-- spec 42 R90, R93 over a whole capture: `k < 59` bits and then a failure leave `TIMED_OUT` with `idx = k`, the `k` bits
stored and hidden, and the decoder's results as they were; `k + 1` responses are consumed (spec 20 R43). -/
def Obligations.FailureAtTheKthCaptureIsATimeout : Prop :=
  ∀ (s : State) (ds : List Nat) (bs : List Bool) (noPulse : Bool) (dur : Nat) (cause : AcqCause)
      (rest : List Input),
    s.core.st = .capture → s.core.idx = 0 → bs.length < 59 → AreBits s.params ds bs →
    IsFailure s.params noPulse dur cause → dur < 2 ^ s.params.durW →
    s.inputs = pulses s.params.widths ds ++ response s.params.widths noPulse dur :: rest →
      ∃ t, Host.Core.run Sys2Proof.core (bs.length + 1) s = .next t ∧ t.core.st = .timedOut ∧
        t.core.acqResult = .timeout ∧ t.core.acqCause = cause ∧ t.core.idx.toNat = bs.length ∧
        (∀ k (hk : k < bs.length), t.core.fb.getLsbD k = bs[k]) ∧
        (∀ k, bs.length ≤ k → t.core.fb.getLsbD k = s.core.fb.getLsbD k) ∧
        (outputs t.params t.core).frame = 0 ∧ t.core.decResult = s.core.decResult ∧ t.core.tv = s.core.tv ∧
        t.inputs = rest

/-- A whole acquisition, from any resting state: `ACQUIRE 59`, any pulses, the marker, 59 bits give `COMPLETE` with exactly
those bits on `frame_o`, whatever the buffer held (spec 42 R92, R95, R96). -/
def Obligations.AcquisitionDeliversTheFrame : Prop :=
  ∀ (s : State) (frame : Frame) (waits : List Nat) (marker : Nat) (ds : List Nat) (bs : List Bool)
      (rest : List Input),
    s.core.busy = false → bs.length = 59 → AreBits s.params ds bs →
    (∀ d ∈ waits, d < 2 ^ s.params.durW) → marker < 2 ^ s.params.durW →
    s.inputs = .event (.present .cmd (cmdBytes s.params.widths OP_ACQUIRE 59 frame)) ::
      (pulses s.params.widths waits ++ response s.params.widths true marker :: (pulses s.params.widths ds ++ rest)) →
      ∃ t, Host.Core.run Sys2Proof.core (waits.length + 61) s = .next t ∧ t.core.st = .complete ∧ t.core.idx = 59 ∧
        t.core.acqResult = .success ∧ t.core.acqCause = .none ∧
        (outputs t.params t.core).frameValid = true ∧
        (∀ k (hk : k < bs.length), (outputs t.params t.core).frame.getLsbD k = bs[k]) ∧
        t.core.decResult = s.core.decResult ∧ t.core.tv = s.core.tv ∧ t.inputs = rest

/-! ## The field extractor -/

/-- The two one-bit fields (spec 43 R102, R103). -/
def Obligations.ExtractFlagsReadOneBit : Prop :=
  ∀ (s : State) (f : Frame),
    exec (.extractTf f) s = .next { s with fnValue := .extractTf (BitVec.ofNat 1 (bit f 15)) } ∧
    exec (.extractA1 f) s = .next { s with fnValue := .extractA1 (BitVec.ofNat 1 (bit f 16)) }

/-- Minute and hour: the weighted sums, within their widths (spec 43 R104, R105). -/
def Obligations.ExtractClockFields : Prop :=
  ∀ (s : State) (f : Frame),
    exec (.extractMinute f) s = .next { s with fnValue := .extractMinute (BitVec.ofNat 7 (minuteSum f)) } ∧
    minuteSum f ≤ 85 ∧
    exec (.extractHour f) s = .next { s with fnValue := .extractHour (BitVec.ofNat 6 (hourSum f)) } ∧
    hourSum f ≤ 45

/-- Day, weekday, month and year: the weighted sums, within their widths (spec 43 R106 to R109). -/
def Obligations.ExtractDateFields : Prop :=
  ∀ (s : State) (f : Frame),
    exec (.extractDay f) s = .next { s with fnValue := .extractDay (BitVec.ofNat 6 (daySum f)) } ∧ daySum f ≤ 45 ∧
    exec (.extractWeekday f) s = .next { s with fnValue := .extractWeekday (BitVec.ofNat 3 (weekdaySum f)) } ∧
    weekdaySum f ≤ 7 ∧
    exec (.extractMonth f) s = .next { s with fnValue := .extractMonth (BitVec.ofNat 5 (monthSum f)) } ∧
    monthSum f ≤ 25 ∧
    exec (.extractYear f) s = .next { s with fnValue := .extractYear (BitVec.ofNat 8 (yearSum f)) } ∧ yearSum f ≤ 165

/-- spec 43 R111: frames that agree on a field's positions give the same value; fields do not overlap and hold no parity
position. -/
def Obligations.ExtractReadsOnlyItsField : Prop :=
  (∀ (f g : Frame) (fd : Field),
    (∀ k, (fieldRange fd).1 ≤ k → k < (fieldRange fd).1 + (fieldRange fd).2 → AgreeAt f g k) → extract f fd = extract g fd) ∧
  (∀ (fd fe : Field) (k : Nat), (fieldRange fd).1 ≤ k → k < (fieldRange fd).1 + (fieldRange fd).2 →
    (fieldRange fe).1 ≤ k → k < (fieldRange fe).1 + (fieldRange fe).2 → fd = fe) ∧
  (∀ (fd : Field) (k : Nat), (fieldRange fd).1 ≤ k → k < (fieldRange fd).1 + (fieldRange fd).2 → k ≠ 28 ∧ k ≠ 35 ∧ k ≠ 58)

/-! ## The validators -/

/-- spec 44 R115 to R118: each check passes exactly when the ones among its data bits and its parity bit are even, and any
failing check makes `DECODE` report `PARITY_ERROR`. -/
def Obligations.ParityChecksCountOnes : Prop :=
  ∀ (s : State) (f : Frame),
    exec (.parityMinute f) s = .next { s with fnValue := .parityMinute (decide (ones f 21 7 % 2 = bit f 28)) } ∧
    (ones f 21 7 % 2 = bit f 28 ↔ ones f 21 8 % 2 = 0) ∧
    exec (.parityHour f) s = .next { s with fnValue := .parityHour (decide (ones f 29 6 % 2 = bit f 35)) } ∧
    (ones f 29 6 % 2 = bit f 35 ↔ ones f 29 7 % 2 = 0) ∧
    exec (.parityDate f) s = .next { s with fnValue := .parityDate (decide (ones f 36 22 % 2 = bit f 58)) } ∧
    (ones f 36 22 % 2 = bit f 58 ↔ ones f 36 23 % 2 = 0) ∧
    (s.core.busy = false → ¬ ParityHolds f → exec (.decode 59 f) s =
      .next { s with core := { s.core with decResult := .parityError, tv := TimeValue.zero } })

/-- spec 44 R119: a check's verdict flips with every odd number of flipped positions among those it reads and stays with
every even number; and where it passed before an odd number of flips, `DECODE 59` reports `PARITY_ERROR`. -/
def Obligations.OddFlipsFlipTheVerdict : Prop :=
  ∀ (f g : Frame) (r : ParityRange),
    (parityCheck g r = (parityCheck f r ^^ decide (flips f g (parityData r).1 ((parityData r).2 + 1) % 2 = 1))) ∧
    (parityCheck f r = true → flips f g (parityData r).1 ((parityData r).2 + 1) % 2 = 1 →
      parityOk g = false ∧
      ∀ s : State, s.core.busy = false → exec (.decode 59 g) s =
        .next { s with core := { s.core with decResult := .parityError, tv := TimeValue.zero } })

/-- spec 45 R125, R126: plausible exactly when day, month and year are not zero, and no other bound is checked. -/
def Obligations.PlausRejectsZerosOnly : Prop :=
  ∀ (s : State) (day : BitVec 6) (month : BitVec 5) (year : BitVec 8),
    ∃ ok : Bool, exec (.plaus day month year) s = .next { s with fnValue := .plaus ok } ∧
      (ok = true ↔ day ≠ 0 ∧ month ≠ 0 ∧ year ≠ 0)

/-- spec 45 R125, in terms of the frame: a date field is zero exactly when all its bits are. -/
def Obligations.DateFieldIsZeroWhenItsBitsAre : Prop :=
  ∀ f : Frame,
    (valueDay f = 0 ↔ ∀ k, 36 ≤ k → k ≤ 41 → f.getLsbD k = false) ∧
    (valueMonth f = 0 ↔ ∀ k, 45 ≤ k → k ≤ 49 → f.getLsbD k = false) ∧
    (valueYear f = 0 ↔ ∀ k, 50 ≤ k → k ≤ 57 → f.getLsbD k = false)

/-! ## DECODE, NOP, RSVD and the command port -/

/-- spec 46 R130 to R133: `DECODE` is enabled iff `busy = 0`, and an accepted one records, by the fixed order of the checks, one
result and one TimeValue, and leaves everything else. -/
def Obligations.DecodeRecordsByTheOrderOfChecks : Prop :=
  ∀ (s : State) (size : Nat) (frame : Frame),
    (size < 2 ^ s.params.sizeW →
      decode s.params.widths (commandWord s.params.widths 2 size frame) = .ok (.decode size frame)) ∧
    (select s.core .cmd = some .cmd ↔ s.core.busy = false) ∧
    (s.core.busy = true → exec (.decode size frame) s = .next s) ∧
    (s.core.busy = false → ∃ r tv,
      exec (.decode size frame) s = .next { s with core := { s.core with decResult := r, tv := tv } } ∧
      DecodeRecords size frame r tv)

/-- spec 46 R137: the results of a `DECODE` depend on its operands only, and it makes no measurement request. -/
def Obligations.DecodeIsAPureFunctionOfItsOperands : Prop :=
  ∀ (s u : State) (size : Nat) (frame : Frame), s.core.busy = false → u.core.busy = false →
    ∃ t v, exec (.decode size frame) s = .next t ∧ exec (.decode size frame) u = .next v ∧
      t.core.decResult = v.core.decResult ∧ t.core.tv = v.core.tv ∧
      (outputs t.params t.core).psReq = false

/-- spec 45 R127: the all-zero frame passes parity and is a `DATE_ERROR`; so is `frame_o` while `frame_valid_o = 0`, and so is
every frame with day, month or year 0 whose parity holds. -/
def Obligations.AllZeroFrameIsADateError : Prop :=
  ∀ s : State, s.core.busy = false →
    parityOk 0 = true ∧
    exec (.decode 59 0) s =
      .next { s with core := { s.core with decResult := .dateError, tv := TimeValue.zero } } ∧
    ((outputs s.params s.core).frameValid = false →
      exec (.decode 59 (outputs s.params s.core).frame) s =
        .next { s with core := { s.core with decResult := .dateError, tv := TimeValue.zero } }) ∧
    (∀ f : Frame, ParityHolds f → ¬ DateHolds f → exec (.decode 59 f) s =
      .next { s with core := { s.core with decResult := .dateError, tv := TimeValue.zero } })

/-- spec 44 R120: the positions 0 to 20 are covered by no check; they can change the two flags and nothing else. -/
def Obligations.UnprotectedPositionsChangeOnlyTheFlags : Prop :=
  ∀ (s : State) (f g : Frame), s.core.busy = false → (∀ k, 21 ≤ k → k ≤ 58 → AgreeAt f g k) →
    ∃ t v, exec (.decode 59 f) s = .next t ∧ exec (.decode 59 g) s = .next v ∧
      v = { t with core := { t.core with tv :=
        { t.core.tv with transmitterFault := v.core.tv.transmitterFault, a1 := v.core.tv.a1 } } } ∧
      (t.core.decResult = .success →
        v.core.tv.transmitterFault = BitVec.ofNat 1 (bit g 15) ∧ v.core.tv.a1 = BitVec.ofNat 1 (bit g 16))

/-- spec 30 R61: the ignored bits of every word change nothing in the state after the event. -/
def Obligations.IgnoredBitsChangeNothing : Prop :=
  ∀ (s : State) (size size' : Nat) (f g : Frame) (dur dur' : Nat) (noPulse : Bool),
    exec (.nop size f) s = exec (.nop size' g) s ∧
    exec (.rsvd size f) s = exec (.rsvd size' g) s ∧
    exec (.acquire size f) s = exec (.acquire size g) s ∧
    (size ≠ 59 → exec (.decode size f) s = exec (.decode size g) s) ∧
    ((∀ k, k = 15 ∨ k = 16 ∨ (21 ≤ k ∧ k ≤ 58) → AgreeAt f g k) → exec (.decode 59 f) s = exec (.decode 59 g) s) ∧
    exec (.capture true dur) s = exec (.capture true dur') s ∧
    exec (.classify true dur) s = exec (.classify true dur') s ∧
    exec (.sync noPulse dur) s = exec (.sync noPulse dur') s

/-- spec 46 R134, R135: `NOP` and `RSVD` change no state element, whatever their fields hold. -/
def Obligations.NopAndRsvdChangeNothing : Prop :=
  ∀ (s : State) (size : Nat) (frame : Frame),
    exec (.nop size frame) s = .next s ∧ exec (.rsvd size frame) s = .next s ∧
    (size < 2 ^ s.params.sizeW →
      decode s.params.widths (commandWord s.params.widths 0 size frame) = .ok (.nop size frame) ∧
      decode s.params.widths (commandWord s.params.widths 3 size frame) = .ok (.rsvd size frame)) ∧
    (s.core.busy = false → select s.core .cmd = some .cmd) ∧ (s.core.busy = true → select s.core .cmd = none)

/-- spec 46 R136: a command offered while an acquisition runs changes nothing and is not remembered, as an operation, as an
event or at an edge. -/
def Obligations.CommandsAreNotTakenWhileBusy : Prop :=
  ∀ (s : State) (size : Nat) (frame : Frame) (bytes : List Byte) (p : Ports) (rest : List Input), s.core.busy = true →
    (∀ i ∈ commands size frame, exec i s = .next s) ∧
    (s.inputs = .event (.present .cmd bytes) :: rest → step s = .next { s with inputs := rest }) ∧
    (s.inputs = .edge p :: rest → p.rst = false → p.psValid = false → step s = .next { s with inputs := rest })

/-- spec 46 R139: every accepted command completes in its own event and leaves `busy = 0`, except `ACQUIRE 59`. -/
def Obligations.CommandsCompleteInTheirOwnEvent : Prop :=
  ∀ (s : State) (size : Nat) (frame : Frame), s.core.busy = false →
    (∀ i ∈ commands size frame, (size ≠ 59 ∨ i ≠ .acquire size frame) → ∃ t, exec i s = .next t ∧ t.core.busy = false) ∧
    ∃ t, exec (.acquire 59 frame) s = .next t ∧ t.core.busy = true

/-- spec 46 R138: `DECODE` leaves the acquisition's registers and `frame_o`; `ACQUIRE`, `SYNC` and `CAPTURE` leave the
decoder's. In every state, for every form. -/
def Obligations.DecodeAndAcquisitionAreIndependent : Prop :=
  ∀ (s t : State) (size : Nat) (frame : Frame) (noPulse : Bool) (dur : Nat),
    (exec (.decode size frame) s = .next t →
      t.core.st = s.core.st ∧ t.core.idx = s.core.idx ∧ t.core.fb = s.core.fb ∧ t.core.acqResult = s.core.acqResult ∧
      t.core.acqCause = s.core.acqCause ∧ (outputs t.params t.core).frame = (outputs s.params s.core).frame) ∧
    (∀ i ∈ [Instr.acquire size frame, Instr.sync noPulse dur, Instr.capture noPulse dur], exec i s = .next t →
      t.core.decResult = s.core.decResult ∧ t.core.tv = s.core.tv ∧
      t.params = s.params ∧ t.inputs = s.inputs ∧ t.fnValue = s.fnValue)

/-- The pure functions answer in every state, write no state element, and their value does not depend on the core's state
(spec 40 R73, spec 43 R112, spec 44 R121, spec 45 R128). -/
def Obligations.PureFunctionsReadAndWriteNoState : Prop :=
  ∀ (s u : State) (noPulse : Bool) (dur : Nat) (f : Frame) (day : BitVec 6) (month : BitVec 5) (year : BitVec 8),
    s.params = u.params → ∀ i ∈ pureFunctions noPulse dur f day month year,
      ∃ v : FnValue, exec i s = .next { s with fnValue := v } ∧ exec i u = .next { u with fnValue := v }

/-! ## The outputs -/

/-- spec 10 R21 to R24: every output as a function of the state, by the codes of spec 30 R56 and R57. -/
def Obligations.OutputsShowTheState : Prop :=
  ∀ (p : Params) (c : CoreState),
    ((outputs p c).busy = true ↔ c.st = .waitMarker ∨ c.st = .capture) ∧
    (outputs p c).cmdReady = !(outputs p c).busy ∧ (outputs p c).psReq = (outputs p c).busy ∧
    (outputs p c).psTimeout = p.pulseTimeout ∧
    ((outputs p c).frameValid = true ↔ c.st = .complete) ∧
    (c.st = .complete → (outputs p c).frame = c.fb) ∧ (c.st ≠ .complete → (outputs p c).frame = 0) ∧
    (c.st = .idle → (outputs p c).st = 0) ∧ (c.st = .waitMarker → (outputs p c).st = 1) ∧
    (c.st = .capture → (outputs p c).st = 2) ∧ (c.st = .complete → (outputs p c).st = 3) ∧
    (c.st = .timedOut → (outputs p c).st = 4) ∧ (outputs p c).idx = c.idx ∧
    (c.acqResult = .none → (outputs p c).acqResult = 0) ∧ (c.acqResult = .success → (outputs p c).acqResult = 1) ∧
    (c.acqResult = .invalidSize → (outputs p c).acqResult = 2) ∧ (c.acqResult = .timeout → (outputs p c).acqResult = 3) ∧
    (c.acqCause = .none → (outputs p c).acqCause = 0) ∧ (c.acqCause = .noPulse → (outputs p c).acqCause = 1) ∧
    (c.acqCause = .outOfRange → (outputs p c).acqCause = 2) ∧
    (c.decResult = .none → (outputs p c).decResult = 0) ∧ (c.decResult = .success → (outputs p c).decResult = 1) ∧
    (c.decResult = .invalidSize → (outputs p c).decResult = 2) ∧
    (c.decResult = .parityError → (outputs p c).decResult = 4) ∧
    (c.decResult = .dateError → (outputs p c).decResult = 5) ∧
    ((outputs p c).tvValid = true ↔ c.decResult = .success) ∧
    (outputs p c).tvTransmitterFault = c.tv.transmitterFault ∧ (outputs p c).tvA1 = c.tv.a1 ∧
    (outputs p c).tvMinute = c.tv.minute ∧ (outputs p c).tvHour = c.tv.hour ∧ (outputs p c).tvDay = c.tv.day ∧
    (outputs p c).tvWeekday = c.tv.weekday ∧ (outputs p c).tvMonth = c.tv.month ∧ (outputs p c).tvYear = c.tv.year

/-! ## The whole machine -/

/-- spec 10 R28: every step keeps the invariants I2 to I12, whatever the input. -/
def Obligations.StepKeepsTheInvariants : Prop :=
  ∀ s t : State, Inv s.core → step s = .next t → Inv t.core

/-- spec 20 R35: in a state that meets the invariants no step faults. -/
def Obligations.InvariantStatesStepSafely : Prop :=
  ∀ s : State, Inv s.core → StepsSafely s

/-- spec 10 R11 (its list is the spec's decision D11): `st` moves only along the listed transitions, each at its event. -/
def Obligations.AcquisitionStateMovesOnlyAsListed : Prop :=
  ∀ s t : State, step s = .next t →
    t.core.st = s.core.st ∨
    (Resets s ∧ t.core = resetCore) ∨
    (s.core.busy = false ∧ t.core.st = .waitMarker ∧ t.core.idx = 0 ∧ ∃ frame, Runs s (.acquire 59 frame)) ∨
    (s.core.st = .waitMarker ∧ t.core.st = .capture ∧ t.core.idx = s.core.idx ∧ ∃ dur, Runs s (.sync true dur)) ∨
    (s.core.st = .capture ∧ t.core.st = .complete ∧ s.core.idx = 58 ∧ t.core.idx = 59 ∧
      ∃ noPulse dur b, Runs s (.capture noPulse dur) ∧ IsBit s.params noPulse dur b) ∨
    (s.core.st = .capture ∧ t.core.st = .timedOut ∧ t.core.idx = s.core.idx ∧
      ∃ noPulse dur cause, Runs s (.capture noPulse dur) ∧ IsFailure s.params noPulse dur cause)

/-- spec 10 R12 (decision D12): `idx` is set to 0 by Reset or an accepted `ACQUIRE 59`, advanced by one by a `CAPTURE` step that
stores a bit, and never written otherwise. -/
def Obligations.IdxChangesOnlyByAcquireCaptureReset : Prop :=
  ∀ s t : State, step s = .next t →
    t.core.idx = s.core.idx ∨
    (Resets s ∧ t.core = resetCore) ∨
    (s.core.busy = false ∧ t.core.st = .waitMarker ∧ t.core.idx = 0 ∧ ∃ frame, Runs s (.acquire 59 frame)) ∨
    (s.core.st = .capture ∧ s.core.idx.toNat ≤ 58 ∧ t.core.idx.toNat = s.core.idx.toNat + 1 ∧
      ∃ noPulse dur b, Runs s (.capture noPulse dur) ∧ IsBit s.params noPulse dur b ∧
        t.core.fb.getLsbD s.core.idx.toNat = b)

/-- spec 10 R19: the program counter, the pair (`st`, `idx`), moves only by an accepted `ACQUIRE 59`, by the marker of `SYNC`
or by `CAPTURE`; every other operation leaves it, in every state. -/
def Obligations.ProgramCounterMovesOnlyByAcquireSyncCapture : Prop :=
  ∀ (i : Instr) (s t : State), exec i s = .next t → t.core.pc ≠ s.core.pc →
    (s.core.busy = false ∧ ∃ frame, i = .acquire 59 frame) ∨
    (s.core.st = .waitMarker ∧ ∃ dur, i = .sync true dur) ∨
    (s.core.st = .capture ∧ ∃ noPulse dur, i = .capture noPulse dur)

/-- spec 10 R13 (decision D13): a step writes at most the one cell `FB[idx]`, and only as a `CAPTURE` of a bit; else only Reset
changes the buffer. -/
def Obligations.BufferChangesOnlyAtIdxInCapture : Prop :=
  ∀ s t : State, step s = .next t →
    t.core.fb = s.core.fb ∨
    (Resets s ∧ t.core = resetCore) ∨
    (s.core.st = .capture ∧ (∀ k, k ≠ s.core.idx.toNat → t.core.fb.getLsbD k = s.core.fb.getLsbD k) ∧
      ∃ noPulse dur b, Runs s (.capture noPulse dur) ∧ IsBit s.params noPulse dur b ∧
        t.core.fb.getLsbD s.core.idx.toNat = b)

/-- spec 10 R16, R17 (decisions D15, D18): `dec_result` and `TV` change only by Reset or by a `DECODE`, which a busy block does
not take. -/
def Obligations.DecodeResultsChangeOnlyByDecode : Prop :=
  ∀ s t : State, step s = .next t → t.core.decResult ≠ s.core.decResult ∨ t.core.tv ≠ s.core.tv →
    (Resets s ∧ t.core = resetCore) ∨
    (s.core.busy = false ∧
      ∃ size frame, Runs s (.decode size frame) ∧ DecodeRecords size frame t.core.decResult t.core.tv)

/-- spec 41 R84, spec 46 R136: only the event Reset or a `CAPTURE` response ends an acquisition; a busy block stays busy
otherwise, so no command cancels one. -/
def Obligations.OnlyAResponseOrResetEndsAnAcquisition : Prop :=
  ∀ s t : State, step s = .next t → s.core.busy = true → t.core.busy = false →
    (Resets s ∧ t.core = resetCore) ∨
    (s.core.st = .capture ∧ ∃ noPulse dur, Runs s (.capture noPulse dur) ∧
      ((t.core.st = .complete ∧ t.core.acqResult = .success ∧ ∃ b, IsBit s.params noPulse dur b) ∨
       (t.core.st = .timedOut ∧ t.core.acqResult = .timeout ∧
         ∃ cause, IsFailure s.params noPulse dur cause ∧ t.core.acqCause = cause)))

/-- spec 60 R148: what each error changes, and that nothing else does. -/
def Obligations.RaiseWritesOnlyItsRecord : Prop :=
  ∀ (c : CoreState) (cause : AcqCause),
    raise .acquireInvalidSize c = { c with acqResult := .invalidSize, acqCause := .none } ∧
    raise (.timeout cause) c = { c with st := .timedOut, acqResult := .timeout, acqCause := cause } ∧
    raise .decodeInvalidSize c = { c with decResult := .invalidSize, tv := TimeValue.zero } ∧
    raise .parityError c = { c with decResult := .parityError, tv := TimeValue.zero } ∧
    raise .dateError c = { c with decResult := .dateError, tv := TimeValue.zero }

/-! ## Parameters and the line language -/

/-- spec 00 R2, R3, R4: a parameter set, widths included, that breaks a constraint is refused, and no other is. -/
def Obligations.ParametersOutOfOrderAreRefused : Prop :=
  ∀ durW sizeW lowMin bit0Max bit1Max pulseTimeout : Nat,
    let r : RawParams :=
      { widths := { durW := durW, sizeW := sizeW }
        times := { lowMin := lowMin, bit0Max := bit0Max, bit1Max := bit1Max, pulseTimeout := pulseTimeout } }
    ((1 ≤ durW ∧ 6 ≤ sizeW ∧ lowMin < bit0Max ∧ bit0Max < bit1Max ∧ bit1Max < 2 ^ durW ∧
        0 < pulseTimeout ∧ pulseTimeout < 2 ^ durW) →
      ∃ p : Params, Params.build r = some p ∧ p.durW = durW ∧ p.sizeW = sizeW ∧ p.lowMin = lowMin ∧
        p.bit0Max = bit0Max ∧ p.bit1Max = bit1Max ∧ p.pulseTimeout = pulseTimeout) ∧
    (¬ (1 ≤ durW ∧ 6 ≤ sizeW ∧ lowMin < bit0Max ∧ bit0Max < bit1Max ∧ bit1Max < 2 ^ durW ∧
        0 < pulseTimeout ∧ pulseTimeout < 2 ^ durW) → Params.build r = none)

/-- spec 30 R63 (decision D30): the line `RESET` is the event Reset in every state; an enabled line whose number fits its port
runs its operation. What the model does with a line that is not enabled, which R63 calls "an error of the program", is its own
reading (log 14): the line is passed over. -/
def Obligations.LinesRunTheirOperations : Prop :=
  ∀ (s : State) (l : Line) (rest : List Input), s.inputs = .event (l.event s.params.widths) :: rest →
    (l = .reset → l.enabled s.core = true ∧ ∃ t, step s = .next t ∧ t.core = resetCore ∧ t.params = s.params ∧
      t.inputs = rest) ∧
    ((l = .nop ∨ l = .rsvd ∨ (∃ size, l = .acquire size) ∨ ∃ size frame, l = .decode size frame) →
      (l.enabled s.core = true ↔ s.core.busy = false)) ∧
    ((l = .np ∨ ∃ dur, l = .p dur) → (l.enabled s.core = true ↔ s.core.busy = true)) ∧
    (l.enabled s.core = false → step s = .next { s with inputs := rest }) ∧
    (s.core.busy = false →
      (l = .nop → step s = exec (.nop 0 0) { s with inputs := rest }) ∧
      (∀ size, size < 2 ^ s.params.sizeW → l = .acquire size →
        step s = exec (.acquire size 0) { s with inputs := rest }) ∧
      (∀ size frame, size < 2 ^ s.params.sizeW → l = .decode size frame →
        step s = exec (.decode size frame) { s with inputs := rest }) ∧
      (l = .rsvd → step s = exec (.rsvd 0 0) { s with inputs := rest })) ∧
    (s.core.st = .waitMarker →
      (∀ dur, dur < 2 ^ s.params.durW → l = .p dur → step s = exec (.sync false dur) { s with inputs := rest }) ∧
      (l = .np → step s = exec (.sync true 0) { s with inputs := rest })) ∧
    (s.core.st = .capture →
      (∀ dur, dur < 2 ^ s.params.durW → l = .p dur → step s = exec (.capture false dur) { s with inputs := rest }) ∧
      (l = .np → step s = exec (.capture true 0) { s with inputs := rest }))

end
end

