-- ==== Sys2Proof/Laws/Decode.lean ====
section
/-! SUPPORT. The byte layout and the field packing are undone by the decoder. -/

namespace Sys2Proof

@[simp] theorem leBytes_length (n w : Nat) : (leBytes n w).length = n := by
  induction n generalizing w with
  | zero => rfl
  | succ k ih => simp [leBytes, ih]

theorem leValue_leBytes (n w : Nat) : leValue (leBytes n w) = w % 256 ^ n := by
  induction n generalizing w with
  | zero => simp [leBytes, leValue, Nat.mod_one]
  | succ k ih =>
    have h : w % 256 ^ (k + 1) = w % 256 + 256 * (w / 256 % 256 ^ k) := by
      rw [Nat.pow_succ, Nat.mul_comm (256 ^ k) 256, Nat.mod_mul]
    rw [leBytes, leValue, ih, BitVec.toNat_ofNat, h]

/-- A value that fits its bytes is read back. -/
theorem leValue_leBytes_of_lt {n w : Nat} (h : w < 256 ^ n) : leValue (leBytes n w) = w := by
  rw [leValue_leBytes, Nat.mod_eq_of_lt h]

/-- Bytes are the bytes of their value. -/
theorem leBytes_leValue (bs : List Byte) : leBytes bs.length (leValue bs) = bs := by
  induction bs with
  | nil => rfl
  | cons b rest ih =>
    have hb : b.toNat < 256 := b.isLt
    have hq : (b.toNat + 256 * leValue rest) / 256 = leValue rest := by omega
    rw [List.length_cons, leBytes, leValue, hq, ih]
    congr 1
    apply BitVec.eq_of_toNat_eq
    rw [BitVec.toNat_ofNat]
    omega

/-- A format's value fits the format's bytes. -/
theorem format_fits (w : Widths) (f : Format) : 2 ^ f.width w ≤ 256 ^ f.bytes w := by
  have h : f.width w ≤ 8 * f.bytes w := by unfold Format.bytes; omega
  rw [show (256 : Nat) = 2 ^ 8 from rfl, ← Nat.pow_mul]
  exact Nat.pow_le_pow_right (by decide) h

theorem leValue_lt (bs : List Byte) : leValue bs < 256 ^ bs.length := by
  induction bs with
  | nil => simp [leValue]
  | cons b rest ih =>
    have hb : b.toNat < 256 := b.isLt
    rw [leValue, List.length_cons, Nat.pow_succ]
    omega

/-! ## Fields of a packed word, at any widths -/

theorem packCW_lt {w : Widths} {size : Nat} (op : BitVec 2) (frame : Frame) (h : size < 2 ^ w.sizeW) :
    packCW w op size frame < 2 ^ Format.cw.width w := by
  have ho : op.toNat ≤ 3 := Nat.le_of_lt_succ op.isLt
  have hm : 2 ^ w.sizeW * op.toNat ≤ 2 ^ w.sizeW * 3 := Nat.mul_le_mul_left _ ho
  have hf := frame.isLt
  have hw : 2 ^ Format.cw.width w = 2 ^ 59 * (4 * 2 ^ w.sizeW) := by
    rw [Format.width, Nat.pow_add, Nat.pow_add, Nat.mul_comm]
  rw [hw, packCW]
  omega

theorem packRW_lt {w : Widths} {dur : Nat} (noPulse : Bool) (h : dur < 2 ^ w.durW) :
    packRW w noPulse dur < 2 ^ Format.rw.width w := by
  have hw : 2 ^ Format.rw.width w = 2 * 2 ^ w.durW := by rw [Format.width, Nat.pow_add]
  rw [hw, packRW]
  cases noPulse <;> simp only [Bool.toNat_false, Bool.toNat_true] <;> omega

/-- What lies above the frame of a packed command word. -/
theorem packCW_div (w : Widths) (op : BitVec 2) (size : Nat) (frame : Frame) :
    packCW w op size frame / 2 ^ 59 = size + 2 ^ w.sizeW * op.toNat := by
  rw [packCW, Nat.add_mul_div_left _ _ (by decide), Nat.div_eq_of_lt frame.isLt, Nat.zero_add]

@[simp] theorem cwFrame_packCW (w : Widths) (op : BitVec 2) (size : Nat) (frame : Frame) :
    cwFrame (packCW w op size frame) = frame := by
  apply BitVec.eq_of_toNat_eq
  rw [cwFrame, BitVec.toNat_ofNat, packCW, Nat.add_mul_mod_self_left, Nat.mod_eq_of_lt frame.isLt]

theorem cwSize_packCW {w : Widths} {size : Nat} (op : BitVec 2) (frame : Frame) (h : size < 2 ^ w.sizeW) :
    cwSize w (packCW w op size frame) = size := by
  rw [cwSize, packCW_div, Nat.add_mul_mod_self_left, Nat.mod_eq_of_lt h]

theorem cwOp_packCW {w : Widths} {size : Nat} (op : BitVec 2) (frame : Frame) (h : size < 2 ^ w.sizeW) :
    cwOp w (packCW w op size frame) = op := by
  rw [cwOp, packCW_div, Nat.add_mul_div_left _ _ (Nat.two_pow_pos _), Nat.div_eq_of_lt h, Nat.zero_add, BitVec.ofNat_toNat,
    BitVec.setWidth_eq]

theorem rwDur_packRW {w : Widths} {dur : Nat} (noPulse : Bool) (h : dur < 2 ^ w.durW) :
    rwDur w (packRW w noPulse dur) = dur := by
  rw [rwDur, packRW, Nat.add_mul_mod_self_left, Nat.mod_eq_of_lt h]

theorem rwNoPulse_packRW {w : Widths} {dur : Nat} (noPulse : Bool) (h : dur < 2 ^ w.durW) :
    rwNoPulse w (packRW w noPulse dur) = noPulse := by
  rw [rwNoPulse, packRW, Nat.add_mul_div_left _ _ (Nat.two_pow_pos _), Nat.div_eq_of_lt h, Nat.zero_add]
  cases noPulse <;> rfl

theorem cwSize_lt (w : Widths) (v : Nat) : cwSize w v < 2 ^ w.sizeW := Nat.mod_lt _ (Nat.two_pow_pos _)
theorem rwDur_lt (w : Widths) (v : Nat) : rwDur w v < 2 ^ w.durW := Nat.mod_lt _ (Nat.two_pow_pos _)

/-- A command word is the packing of its three fields. -/
theorem packCW_fields {w : Widths} {v : Nat} (h : v < 2 ^ Format.cw.width w) :
    packCW w (cwOp w v) (cwSize w v) (cwFrame v) = v := by
  have hw : 2 ^ Format.cw.width w = 2 ^ 59 * (2 ^ w.sizeW * 4) := by
    rw [Format.width, Nat.pow_add, Nat.pow_add, Nat.mul_comm, Nat.mul_comm (2 ^ 2)]
  rw [hw] at h
  have ho : v / 2 ^ 59 / 2 ^ w.sizeW < 4 := Nat.div_lt_of_lt_mul (Nat.div_lt_of_lt_mul h)
  rw [packCW, cwOp, cwSize, cwFrame, BitVec.toNat_ofNat, BitVec.toNat_ofNat, Nat.mod_eq_of_lt (b := 2 ^ 2) ho,
    Nat.mod_add_div, Nat.mod_add_div]

/-- A response word is the packing of its two fields. -/
theorem packRW_fields {w : Widths} {v : Nat} (h : v < 2 ^ Format.rw.width w) : packRW w (rwNoPulse w v) (rwDur w v) = v := by
  have hw : 2 ^ Format.rw.width w = 2 ^ w.durW * 2 := by rw [Format.width, Nat.pow_add, Nat.mul_comm]
  rw [hw] at h
  have hn : v / 2 ^ w.durW < 2 := Nat.div_lt_of_lt_mul h
  have hb : (rwNoPulse w v).toNat = v / 2 ^ w.durW := by
    rw [rwNoPulse]
    rcases Nat.lt_or_ge (v / 2 ^ w.durW) 1 with h0 | h1
    · rw [Nat.lt_one_iff.mp h0]; rfl
    · rw [Nat.le_antisymm (Nat.le_of_lt_succ hn) h1]; rfl
  rw [packRW, hb, rwDur, Nat.mod_add_div]

theorem packValues_toNat (day : BitVec 6) (month : BitVec 5) (year : BitVec 8) :
    (packValues day month year).toNat = day.toNat * 2 ^ 13 + month.toNat * 2 ^ 8 + year.toNat := by
  have hm := month.isLt
  have hy := year.isLt
  unfold packValues
  rw [BitVec.toNat_append, BitVec.toNat_append, 
    ← Nat.shiftLeft_add_eq_or_of_lt hy, ← Nat.shiftLeft_add_eq_or_of_lt hm, Nat.shiftLeft_eq, Nat.shiftLeft_eq]
  omega

@[simp] theorem packValues_day (day : BitVec 6) (month : BitVec 5) (year : BitVec 8) :
    (packValues day month year).extractLsb' 13 6 = day := by
  have hd := day.isLt
  have hm := month.isLt
  have hy := year.isLt
  apply BitVec.eq_of_toNat_eq
  rw [BitVec.extractLsb'_toNat, packValues_toNat, Nat.shiftRight_eq_div_pow]
  omega

@[simp] theorem packValues_month (day : BitVec 6) (month : BitVec 5) (year : BitVec 8) :
    (packValues day month year).extractLsb' 8 5 = month := by
  have hd := day.isLt
  have hm := month.isLt
  have hy := year.isLt
  apply BitVec.eq_of_toNat_eq
  rw [BitVec.extractLsb'_toNat, packValues_toNat, Nat.shiftRight_eq_div_pow]
  omega

@[simp] theorem packValues_year (day : BitVec 6) (month : BitVec 5) (year : BitVec 8) :
    (packValues day month year).extractLsb' 0 8 = year := by
  have hd := day.isLt
  have hm := month.isLt
  have hy := year.isLt
  apply BitVec.eq_of_toNat_eq
  rw [BitVec.extractLsb'_toNat, packValues_toNat, Nat.shiftRight_eq_div_pow]
  omega

/-- The word of `PLAUS` is the packing of its three fields. -/
theorem packValues_fields (w : BitVec 19) : packValues (w.extractLsb' 13 6) (w.extractLsb' 8 5) (w.extractLsb' 0 8) = w := by
  have hw := w.isLt
  apply BitVec.eq_of_toNat_eq
  rw [packValues_toNat, BitVec.extractLsb'_toNat, BitVec.extractLsb'_toNat, BitVec.extractLsb'_toNat,
    Nat.shiftRight_eq_div_pow, Nat.shiftRight_eq_div_pow, Nat.shiftRight_eq_div_pow]
  omega

/-! ## What the decoder does with the bytes of a value -/

/-- Bytes of a value that fits the format decode to what the value stands for. -/
theorem decode_leBytes {w : Widths} {sel : Selector} {v : Nat} (h : v < 2 ^ sel.format.width w) :
    decode w { sel := sel, bytes := leBytes (sel.format.bytes w) v } = .ok (decodeValue w sel v) := by
  have hv : leValue (leBytes (sel.format.bytes w) v) = v :=
    leValue_leBytes_of_lt (lt_of_lt_of_le h (format_fits w sel.format))
  simp only [decode, leBytes_length, hv, ne_eq, not_true_eq_false, if_false, if_neg (Nat.not_le.mpr h)]

/-- The decoder accepts exactly the well-formed packets. -/
theorem decode_of_wf {w : Widths} {p : Packet} (h : p.wf w = true) :
    decode w p = .ok (decodeValue w p.sel (leValue p.bytes)) := by
  simp only [Packet.wf, Bool.and_eq_true, beq_iff_eq, decide_eq_true_eq] at h
  simp only [decode, h.1, ne_eq, not_true_eq_false, if_false, if_neg (Nat.not_le.mpr h.2)]

/-- What an accepted packet is. -/
theorem decode_ok {w : Widths} {p : Packet} {i : Instr} (h : decode w p = .ok i) :
    p.bytes.length = p.sel.format.bytes w ∧ leValue p.bytes < 2 ^ p.sel.format.width w ∧
      i = decodeValue w p.sel (leValue p.bytes) := by
  unfold decode at h
  split at h
  · cases h
  · rename_i hl
    split at h
    · cases h
    · rename_i hp
      exact ⟨not_not.mp hl, Nat.not_le.mp hp, (Except.ok.inj h).symm⟩

/-- No word of a format that has bits is no bytes. -/
theorem decode_nil {w : Widths} {sel : Selector} (h : 0 < sel.format.width w) :
    decode w { sel := sel, bytes := [] } = .error .wrongLength := by
  have hb : 0 ≠ sel.format.bytes w := by unfold Format.bytes; omega
  simp only [decode, List.length_nil, ne_eq, hb, not_false_eq_true, if_true]

/-! ## What an operation's word is -/

/-- A duration or a size that fits. -/
theorem fits_dur {w : Widths} {dur : Nat} : durFits w dur = true ↔ dur < 2 ^ w.durW := by simp [durFits]
theorem fits_size {w : Widths} {size : Nat} : sizeFits w size = true ↔ size < 2 ^ w.sizeW := by simp [sizeFits]

/-- The word of a well-formed operation fits its format. -/
theorem encodeValue_lt {w : Widths} {i : Instr} (h : i.wf w = true) :
    encodeValue w i < 2 ^ (selectorOf i).format.width w := by
  cases i
  case classify => exact packRW_lt _ (fits_dur.mp h)
  case acquire => exact packCW_lt _ _ (fits_size.mp h)
  case sync => exact packRW_lt _ (fits_dur.mp h)
  case capture => exact packRW_lt _ (fits_dur.mp h)
  case decode => exact packCW_lt _ _ (fits_size.mp h)
  case nop => exact packCW_lt _ _ (fits_size.mp h)
  case rsvd => exact packCW_lt _ _ (fits_size.mp h)
  all_goals exact BitVec.isLt _

/-- What a selector and a value decode to has that selector. -/
@[simp] theorem selectorOf_decodeValue (w : Widths) (sel : Selector) (v : Nat) : selectorOf (decodeValue w sel v) = sel := by
  cases sel
  case cmd =>
    simp only [decodeValue, decodeCW]
    split
    · rfl
    split
    · rfl
    split <;> rfl
  case sync => rfl
  case capture => rfl
  case call fn => cases fn <;> rfl

/-- A packet that decodes comes with the selector of its operation. -/
theorem selectorOf_of_decode {w : Widths} {p : Packet} {i : Instr} (h : decode w p = .ok i) : selectorOf i = p.sel := by
  obtain ⟨-, -, rfl⟩ := decode_ok h
  exact selectorOf_decodeValue w p.sel _

end Sys2Proof
end

