-- ==== Sys2Proof/Laws/Memory.lean ====
section
/-! SUPPORT. What reading and writing frame cells does. -/

namespace Sys2Proof.Machine

/-- A read shows the cells of its range. -/
@[simp] theorem memRead_getLsbD (f : Frame) (addr n : Nat) (h : addr + n ≤ FRAME_LEN) (j : Nat) :
    (memRead f addr n h).getLsbD j = (decide (j < n) && f.getLsbD (addr + j)) := by
  simp [memRead, BitVec.getLsbD_extractLsb']

/-- Reads of frames that agree on the range are equal. -/
theorem memRead_congr {f g : Frame} {addr n : Nat} (h : addr + n ≤ FRAME_LEN)
    (agree : ∀ k, addr ≤ k → k < addr + n → f.getLsbD k = g.getLsbD k) : memRead f addr n h = memRead g addr n h := by
  apply BitVec.eq_of_getLsbD_eq
  intro j hj
  rw [memRead_getLsbD, memRead_getLsbD, agree (addr + j) (by omega) (by omega)]

/-- Everything a write does: it answers inside the frame, the written cell reads the value, every other cell is as before. -/
theorem memWrite_spec {f g : Frame} {addr : Nat} {v : Bool} (h : memWrite f addr v = some g) :
    addr < FRAME_LEN ∧ g.getLsbD addr = v ∧ ∀ k, k ≠ addr → g.getLsbD k = f.getLsbD k := by
  unfold memWrite at h
  split at h
  case isFalse => cases h
  case isTrue hlt =>
    cases h
    refine ⟨hlt, ?_, fun k hk => ?_⟩
    · cases v <;> simp [hlt]
    · by_cases hk59 : k < FRAME_LEN
      · have one : ((1#59 <<< addr : Frame)).getLsbD k = false := by
          simp only [BitVec.getLsbD_shiftLeft, BitVec.getLsbD_one]
          by_cases hlt' : k < addr
          · simp [hlt']
          · have : k - addr ≠ 0 := by omega
            simp [this]
        cases v <;> simp only [BitVec.getLsbD_or, BitVec.getLsbD_and, BitVec.getLsbD_not, one, hk59, if_true, Bool.false_eq_true,
          if_false, BitVec.getLsbD_zero, Bool.or_false, Bool.not_false, Bool.and_true, decide_true]
      · have hk59' : 59 ≤ k := Nat.not_lt.mp hk59
        rw [BitVec.getLsbD_of_ge _ _ hk59', BitVec.getLsbD_of_ge _ _ hk59']

/-- A write inside the frame answers. -/
theorem memWrite_inside (f : Frame) {addr : Nat} (v : Bool) (h : addr < FRAME_LEN) : ∃ g, memWrite f addr v = some g := by
  simp [memWrite, h]

/-- A write outside the frame does not. -/
@[simp] theorem memWrite_outside (f : Frame) {addr : Nat} (v : Bool) (h : FRAME_LEN ≤ addr) : memWrite f addr v = none := by
  simp [memWrite, Nat.not_lt.mpr h]

end Sys2Proof.Machine
end

