-- ==== Sys2Proof/Laws/Operands.lean ====
section
/-! SUPPORT. What the extractor, the parity checks and the classifier compute, each said once. -/

namespace Sys2Proof.Machine

/-! ## The extractor -/

/-- The weighted sum term by term; terms beyond the length or beyond the table are absent (spec 43 R101). -/
theorem extract_eq (f : Frame) (fd : Field) :
    extract f fd = ((List.range (min (fieldRange fd).2 8)).map fun i =>
      WEIGHT.getD i 0 * (f.getLsbD ((fieldRange fd).1 + i)).toNat).sum := by
  unfold extract weightedSum
  congr 1
  apply List.map_congr_left
  intro i hi
  have hlt : i < (fieldRange fd).2 := lt_of_lt_of_le (List.mem_range.mp hi) (Nat.min_le_left _ _)
  rw [memRead_getLsbD, decide_eq_true hlt, Bool.true_and]

/-- Frames that agree on a field's positions give the field the same value (spec 43 R111). -/
theorem extract_congr {f g : Frame} {fd : Field}
    (agree : ∀ k, (fieldRange fd).1 ≤ k → k < (fieldRange fd).1 + (fieldRange fd).2 → f.getLsbD k = g.getLsbD k) :
    extract f fd = extract g fd := by
  unfold extract
  rw [memRead_congr (fieldRange_inside fd) agree]

theorem extract_transmitterFault (f : Frame) : extract f .transmitterFault = (f.getLsbD 15).toNat := by
  rw [extract_eq]; simp [fieldRange, WEIGHT, List.range_succ]

theorem extract_a1 (f : Frame) : extract f .a1 = (f.getLsbD 16).toNat := by
  rw [extract_eq]; simp [fieldRange, WEIGHT, List.range_succ]

theorem extract_minute (f : Frame) : extract f .minute = (f.getLsbD 21).toNat + 2 * (f.getLsbD 22).toNat +
    4 * (f.getLsbD 23).toNat + 8 * (f.getLsbD 24).toNat + 10 * (f.getLsbD 25).toNat + 20 * (f.getLsbD 26).toNat +
    40 * (f.getLsbD 27).toNat := by
  rw [extract_eq]; simp [fieldRange, WEIGHT, List.range_succ]; omega

theorem extract_hour (f : Frame) : extract f .hour = (f.getLsbD 29).toNat + 2 * (f.getLsbD 30).toNat +
    4 * (f.getLsbD 31).toNat + 8 * (f.getLsbD 32).toNat + 10 * (f.getLsbD 33).toNat + 20 * (f.getLsbD 34).toNat := by
  rw [extract_eq]; simp [fieldRange, WEIGHT, List.range_succ]; omega

theorem extract_day (f : Frame) : extract f .day = (f.getLsbD 36).toNat + 2 * (f.getLsbD 37).toNat +
    4 * (f.getLsbD 38).toNat + 8 * (f.getLsbD 39).toNat + 10 * (f.getLsbD 40).toNat + 20 * (f.getLsbD 41).toNat := by
  rw [extract_eq]; simp [fieldRange, WEIGHT, List.range_succ]; omega

theorem extract_weekday (f : Frame) : extract f .weekday = (f.getLsbD 42).toNat + 2 * (f.getLsbD 43).toNat +
    4 * (f.getLsbD 44).toNat := by
  rw [extract_eq]; simp [fieldRange, WEIGHT, List.range_succ]; omega

theorem extract_month (f : Frame) : extract f .month = (f.getLsbD 45).toNat + 2 * (f.getLsbD 46).toNat +
    4 * (f.getLsbD 47).toNat + 8 * (f.getLsbD 48).toNat + 10 * (f.getLsbD 49).toNat := by
  rw [extract_eq]; simp [fieldRange, WEIGHT, List.range_succ]; omega

theorem extract_year (f : Frame) : extract f .year = (f.getLsbD 50).toNat + 2 * (f.getLsbD 51).toNat +
    4 * (f.getLsbD 52).toNat + 8 * (f.getLsbD 53).toNat + 10 * (f.getLsbD 54).toNat + 20 * (f.getLsbD 55).toNat +
    40 * (f.getLsbD 56).toNat + 80 * (f.getLsbD 57).toNat := by
  rw [extract_eq]; simp [fieldRange, WEIGHT, List.range_succ]; omega

/-- A field's largest value (spec 30 R58). -/
def fieldMax (fd : Field) : Nat :=
  match fd with
  | .transmitterFault => 1
  | .a1 => 1
  | .minute => 85
  | .hour => 45
  | .day => 45
  | .weekday => 7
  | .month => 25
  | .year => 165

/-- No extraction exceeds its field's largest value, so narrowing to the `TV` widths loses nothing (spec 30 R58). -/
theorem extract_le (f : Frame) (fd : Field) : extract f fd ≤ fieldMax fd := by
  have b : ∀ k, (f.getLsbD k).toNat ≤ 1 := fun k => Bool.toNat_le _
  cases fd
  case transmitterFault => rw [extract_transmitterFault]; exact b 15
  case a1 => rw [extract_a1]; exact b 16
  case minute => rw [extract_minute, fieldMax]; have := b 21; have := b 22; have := b 23; have := b 24; have := b 25; have := b 26; have := b 27; omega
  case hour => rw [extract_hour, fieldMax]; have := b 29; have := b 30; have := b 31; have := b 32; have := b 33; have := b 34; omega
  case day => rw [extract_day, fieldMax]; have := b 36; have := b 37; have := b 38; have := b 39; have := b 40; have := b 41; omega
  case weekday => rw [extract_weekday, fieldMax]; have := b 42; have := b 43; have := b 44; omega
  case month => rw [extract_month, fieldMax]; have := b 45; have := b 46; have := b 47; have := b 48; have := b 49; omega
  case year => rw [extract_year, fieldMax]; have := b 50; have := b 51; have := b 52; have := b 53; have := b 54; have := b 55; have := b 56; have := b 57; omega

@[simp] theorem valueMinute_toNat (f : Frame) : (valueMinute f).toNat = extract f .minute := by
  have := extract_le f .minute; simp only [fieldMax] at this; simp [valueMinute]; omega

@[simp] theorem valueHour_toNat (f : Frame) : (valueHour f).toNat = extract f .hour := by
  have := extract_le f .hour; simp only [fieldMax] at this; simp [valueHour]; omega

@[simp] theorem valueDay_toNat (f : Frame) : (valueDay f).toNat = extract f .day := by
  have := extract_le f .day; simp only [fieldMax] at this; simp [valueDay]; omega

@[simp] theorem valueWeekday_toNat (f : Frame) : (valueWeekday f).toNat = extract f .weekday := by
  have := extract_le f .weekday; simp only [fieldMax] at this; simp [valueWeekday]; omega

@[simp] theorem valueMonth_toNat (f : Frame) : (valueMonth f).toNat = extract f .month := by
  have := extract_le f .month; simp only [fieldMax] at this; simp [valueMonth]; omega

@[simp] theorem valueYear_toNat (f : Frame) : (valueYear f).toNat = extract f .year := by
  have := extract_le f .year; simp only [fieldMax] at this; simp [valueYear]; omega

/-! ## The parity checks -/

/-- Exclusive-or of the `n` bits from `lo`, as a fold over the frame. -/
def xorRange (f : Frame) (lo n : Nat) : Bool :=
  match n with
  | 0 => false
  | k + 1 => xorRange f lo k ^^ f.getLsbD (lo + k)

theorem xorBits_memRead (f : Frame) (lo n : Nat) (h : lo + n ≤ FRAME_LEN) : xorBits (memRead f lo n h) = xorRange f lo n := by
  have step : ∀ m, m ≤ n →
      (List.range m).foldl (fun acc i => acc ^^ (memRead f lo n h).getLsbD i) false = xorRange f lo m := by
    intro m
    induction m with
    | zero => intro _; rfl
    | succ k ih =>
      intro hk
      rw [List.range_succ, List.foldl_append, ih (by omega)]
      simp only [List.foldl_cons, List.foldl_nil, memRead_getLsbD, xorRange]
      rw [decide_eq_true (show k < n by omega), Bool.true_and]
  exact step n (le_refl n)

/-- A check passes exactly when the exclusive-or over its data bits and its parity bit together is 0. -/
theorem parityCheck_eq (f : Frame) (r : ParityRange) :
    parityCheck f r = !(xorRange f (parityData r).1 ((parityData r).2 + 1)) := by
  unfold parityCheck
  simp only [xorBits_memRead, memRead_getLsbD, xorRange]
  cases xorRange f (parityData r).1 (parityData r).2 <;> cases f.getLsbD ((parityData r).1 + (parityData r).2) <;> simp_all

/-- A check reads only its range and its parity bit. -/
theorem parityCheck_congr {f g : Frame} {r : ParityRange}
    (agree : ∀ k, (parityData r).1 ≤ k → k ≤ (parityData r).1 + (parityData r).2 → f.getLsbD k = g.getLsbD k) :
    parityCheck f r = parityCheck g r := by
  unfold parityCheck
  simp only [memRead_congr (Nat.le_of_succ_le (parityData_inside r)) (fun k h1 h2 => agree k h1 (by omega)),
    memRead_congr (parityData_inside r) (fun k h1 h2 => agree k (by omega) (by omega))]

/-- The exclusive-or over a range of a bitwise exclusive-or. -/
theorem xorRange_xor (f g : Frame) (lo n : Nat) : xorRange (f ^^^ g) lo n = (xorRange f lo n ^^ xorRange g lo n) := by
  induction n with
  | zero => rfl
  | succ k ih =>
    rw [xorRange, xorRange, xorRange, ih, BitVec.getLsbD_xor]
    cases xorRange f lo k <;> cases xorRange g lo k <;> cases f.getLsbD (lo + k) <;> cases g.getLsbD (lo + k) <;> rfl

/-! ## The classifier (spec 40 R70) -/

theorem classify_noPulse (p : Params) (dur : Nat) : classify p true dur = .noPulse := rfl

theorem classify_tooShort {p : Params} {dur : Nat} (h : dur ≤ p.lowMin) : classify p false dur = .outOfRange := by
  simp [classify, h]

theorem classify_bit0 {p : Params} {dur : Nat} (hl : p.lowMin < dur) (hu : dur ≤ p.bit0Max) :
    classify p false dur = .bit0 := by
  simp [classify, hu, Nat.not_le.mpr hl]

theorem classify_bit1 {p : Params} {dur : Nat} (hl : p.bit0Max < dur) (hu : dur ≤ p.bit1Max) :
    classify p false dur = .bit1 := by
  have h0 : p.lowMin < dur := lt_trans p.ok.2.1 hl
  simp [classify, hu, Nat.not_le.mpr hl, Nat.not_le.mpr h0]

theorem classify_tooLong {p : Params} {dur : Nat} (h : p.bit1Max < dur) : classify p false dur = .outOfRange := by
  have h1 : p.bit0Max < dur := lt_trans p.ok.2.2.1 h
  have h0 : p.lowMin < dur := lt_trans p.ok.2.1 h1
  simp [classify, Nat.not_le.mpr h, Nat.not_le.mpr h1, Nat.not_le.mpr h0]

/-- The five regions cover every response (spec 40 R72). -/
theorem classify_cases (p : Params) (noPulse : Bool) (dur : Nat) :
    (noPulse = true ∧ classify p noPulse dur = .noPulse) ∨
    (noPulse = false ∧ dur ≤ p.lowMin ∧ classify p noPulse dur = .outOfRange) ∨
    (noPulse = false ∧ p.lowMin < dur ∧ dur ≤ p.bit0Max ∧ classify p noPulse dur = .bit0) ∨
    (noPulse = false ∧ p.bit0Max < dur ∧ dur ≤ p.bit1Max ∧ classify p noPulse dur = .bit1) ∨
    (noPulse = false ∧ p.bit1Max < dur ∧ classify p noPulse dur = .outOfRange) := by
  cases noPulse
  case true => exact .inl ⟨rfl, rfl⟩
  case false =>
    rcases Nat.lt_or_ge p.lowMin dur with h0 | h0
    case inr => exact .inr (.inl ⟨rfl, h0, classify_tooShort h0⟩)
    rcases Nat.lt_or_ge p.bit0Max dur with h1 | h1
    case inr => exact .inr (.inr (.inl ⟨rfl, h0, h1, classify_bit0 h0 h1⟩))
    rcases Nat.lt_or_ge p.bit1Max dur with h2 | h2
    case inr => exact .inr (.inr (.inr (.inl ⟨rfl, h1, h2, classify_bit1 h1 h2⟩)))
    exact .inr (.inr (.inr (.inr ⟨rfl, h2, classify_tooLong h2⟩)))

end Sys2Proof.Machine
end

