-- ==== Sys2Proof/Laws/State.lean ====
section
/-! SUPPORT. One lemma per field per update, each true by `rfl`: later proofs never unfold a record update. -/

namespace Sys2Proof.Machine

/-! ## Updates of the core -/

namespace CoreState

@[simp] theorem startAcquisition_st (c : CoreState) : c.startAcquisition.st = .waitMarker := rfl
@[simp] theorem startAcquisition_idx (c : CoreState) : c.startAcquisition.idx = 0 := rfl
@[simp] theorem startAcquisition_fb (c : CoreState) : c.startAcquisition.fb = c.fb := rfl
@[simp] theorem startAcquisition_acqResult (c : CoreState) : c.startAcquisition.acqResult = .none := rfl
@[simp] theorem startAcquisition_acqCause (c : CoreState) : c.startAcquisition.acqCause = .none := rfl
@[simp] theorem startAcquisition_decResult (c : CoreState) : c.startAcquisition.decResult = c.decResult := rfl
@[simp] theorem startAcquisition_tv (c : CoreState) : c.startAcquisition.tv = c.tv := rfl

@[simp] theorem enterCapture_st (c : CoreState) : c.enterCapture.st = .capture := rfl
@[simp] theorem enterCapture_idx (c : CoreState) : c.enterCapture.idx = c.idx := rfl
@[simp] theorem enterCapture_fb (c : CoreState) : c.enterCapture.fb = c.fb := rfl
@[simp] theorem enterCapture_acqResult (c : CoreState) : c.enterCapture.acqResult = c.acqResult := rfl
@[simp] theorem enterCapture_acqCause (c : CoreState) : c.enterCapture.acqCause = c.acqCause := rfl
@[simp] theorem enterCapture_decResult (c : CoreState) : c.enterCapture.decResult = c.decResult := rfl
@[simp] theorem enterCapture_tv (c : CoreState) : c.enterCapture.tv = c.tv := rfl

@[simp] theorem advance_st (fb : Frame) (c : CoreState) : (c.advance fb).st = c.st := rfl
@[simp] theorem advance_idx (fb : Frame) (c : CoreState) : (c.advance fb).idx = c.idx + 1 := rfl
@[simp] theorem advance_fb (fb : Frame) (c : CoreState) : (c.advance fb).fb = fb := rfl
@[simp] theorem advance_acqResult (fb : Frame) (c : CoreState) : (c.advance fb).acqResult = c.acqResult := rfl
@[simp] theorem advance_acqCause (fb : Frame) (c : CoreState) : (c.advance fb).acqCause = c.acqCause := rfl
@[simp] theorem advance_decResult (fb : Frame) (c : CoreState) : (c.advance fb).decResult = c.decResult := rfl
@[simp] theorem advance_tv (fb : Frame) (c : CoreState) : (c.advance fb).tv = c.tv := rfl

@[simp] theorem complete_st (fb : Frame) (c : CoreState) : (c.complete fb).st = .complete := rfl
@[simp] theorem complete_idx (fb : Frame) (c : CoreState) : (c.complete fb).idx = c.idx + 1 := rfl
@[simp] theorem complete_fb (fb : Frame) (c : CoreState) : (c.complete fb).fb = fb := rfl
@[simp] theorem complete_acqResult (fb : Frame) (c : CoreState) : (c.complete fb).acqResult = .success := rfl
@[simp] theorem complete_acqCause (fb : Frame) (c : CoreState) : (c.complete fb).acqCause = c.acqCause := rfl
@[simp] theorem complete_decResult (fb : Frame) (c : CoreState) : (c.complete fb).decResult = c.decResult := rfl
@[simp] theorem complete_tv (fb : Frame) (c : CoreState) : (c.complete fb).tv = c.tv := rfl

@[simp] theorem publish_st (tv : TimeValue) (c : CoreState) : (c.publish tv).st = c.st := rfl
@[simp] theorem publish_idx (tv : TimeValue) (c : CoreState) : (c.publish tv).idx = c.idx := rfl
@[simp] theorem publish_fb (tv : TimeValue) (c : CoreState) : (c.publish tv).fb = c.fb := rfl
@[simp] theorem publish_acqResult (tv : TimeValue) (c : CoreState) : (c.publish tv).acqResult = c.acqResult := rfl
@[simp] theorem publish_acqCause (tv : TimeValue) (c : CoreState) : (c.publish tv).acqCause = c.acqCause := rfl
@[simp] theorem publish_decResult (tv : TimeValue) (c : CoreState) : (c.publish tv).decResult = .success := rfl
@[simp] theorem publish_tv (tv : TimeValue) (c : CoreState) : (c.publish tv).tv = tv := rfl

end CoreState

/-! ## Errors -/

@[simp] theorem raise_acquireInvalidSize_st (c : CoreState) : (raise .acquireInvalidSize c).st = c.st := rfl
@[simp] theorem raise_acquireInvalidSize_idx (c : CoreState) : (raise .acquireInvalidSize c).idx = c.idx := rfl
@[simp] theorem raise_acquireInvalidSize_fb (c : CoreState) : (raise .acquireInvalidSize c).fb = c.fb := rfl
@[simp] theorem raise_acquireInvalidSize_acqResult (c : CoreState) : (raise .acquireInvalidSize c).acqResult = .invalidSize := rfl
@[simp] theorem raise_acquireInvalidSize_acqCause (c : CoreState) : (raise .acquireInvalidSize c).acqCause = .none := rfl
@[simp] theorem raise_acquireInvalidSize_decResult (c : CoreState) : (raise .acquireInvalidSize c).decResult = c.decResult := rfl
@[simp] theorem raise_acquireInvalidSize_tv (c : CoreState) : (raise .acquireInvalidSize c).tv = c.tv := rfl

@[simp] theorem raise_timeout_st (cause : AcqCause) (c : CoreState) : (raise (.timeout cause) c).st = .timedOut := rfl
@[simp] theorem raise_timeout_idx (cause : AcqCause) (c : CoreState) : (raise (.timeout cause) c).idx = c.idx := rfl
@[simp] theorem raise_timeout_fb (cause : AcqCause) (c : CoreState) : (raise (.timeout cause) c).fb = c.fb := rfl
@[simp] theorem raise_timeout_acqResult (cause : AcqCause) (c : CoreState) : (raise (.timeout cause) c).acqResult = .timeout := rfl
@[simp] theorem raise_timeout_acqCause (cause : AcqCause) (c : CoreState) : (raise (.timeout cause) c).acqCause = cause := rfl
@[simp] theorem raise_timeout_decResult (cause : AcqCause) (c : CoreState) : (raise (.timeout cause) c).decResult = c.decResult := rfl
@[simp] theorem raise_timeout_tv (cause : AcqCause) (c : CoreState) : (raise (.timeout cause) c).tv = c.tv := rfl

@[simp] theorem raise_decodeInvalidSize_st (c : CoreState) : (raise .decodeInvalidSize c).st = c.st := rfl
@[simp] theorem raise_decodeInvalidSize_idx (c : CoreState) : (raise .decodeInvalidSize c).idx = c.idx := rfl
@[simp] theorem raise_decodeInvalidSize_fb (c : CoreState) : (raise .decodeInvalidSize c).fb = c.fb := rfl
@[simp] theorem raise_decodeInvalidSize_acqResult (c : CoreState) : (raise .decodeInvalidSize c).acqResult = c.acqResult := rfl
@[simp] theorem raise_decodeInvalidSize_acqCause (c : CoreState) : (raise .decodeInvalidSize c).acqCause = c.acqCause := rfl
@[simp] theorem raise_decodeInvalidSize_decResult (c : CoreState) : (raise .decodeInvalidSize c).decResult = .invalidSize := rfl
@[simp] theorem raise_decodeInvalidSize_tv (c : CoreState) : (raise .decodeInvalidSize c).tv = TimeValue.zero := rfl

@[simp] theorem raise_parityError_st (c : CoreState) : (raise .parityError c).st = c.st := rfl
@[simp] theorem raise_parityError_idx (c : CoreState) : (raise .parityError c).idx = c.idx := rfl
@[simp] theorem raise_parityError_fb (c : CoreState) : (raise .parityError c).fb = c.fb := rfl
@[simp] theorem raise_parityError_acqResult (c : CoreState) : (raise .parityError c).acqResult = c.acqResult := rfl
@[simp] theorem raise_parityError_acqCause (c : CoreState) : (raise .parityError c).acqCause = c.acqCause := rfl
@[simp] theorem raise_parityError_decResult (c : CoreState) : (raise .parityError c).decResult = .parityError := rfl
@[simp] theorem raise_parityError_tv (c : CoreState) : (raise .parityError c).tv = TimeValue.zero := rfl

@[simp] theorem raise_dateError_st (c : CoreState) : (raise .dateError c).st = c.st := rfl
@[simp] theorem raise_dateError_idx (c : CoreState) : (raise .dateError c).idx = c.idx := rfl
@[simp] theorem raise_dateError_fb (c : CoreState) : (raise .dateError c).fb = c.fb := rfl
@[simp] theorem raise_dateError_acqResult (c : CoreState) : (raise .dateError c).acqResult = c.acqResult := rfl
@[simp] theorem raise_dateError_acqCause (c : CoreState) : (raise .dateError c).acqCause = c.acqCause := rfl
@[simp] theorem raise_dateError_decResult (c : CoreState) : (raise .dateError c).decResult = .dateError := rfl
@[simp] theorem raise_dateError_tv (c : CoreState) : (raise .dateError c).tv = TimeValue.zero := rfl

/-! ## Updates of the state -/

namespace State

@[simp] theorem withCore_core (s : State) (c : CoreState) : (s.withCore c).core = c := rfl
@[simp] theorem withCore_params (s : State) (c : CoreState) : (s.withCore c).params = s.params := rfl
@[simp] theorem withCore_inputs (s : State) (c : CoreState) : (s.withCore c).inputs = s.inputs := rfl
@[simp] theorem withCore_fnValue (s : State) (c : CoreState) : (s.withCore c).fnValue = s.fnValue := rfl

@[simp] theorem reportValue_core (s : State) (v : FnValue) : (s.reportValue v).core = s.core := rfl
@[simp] theorem reportValue_params (s : State) (v : FnValue) : (s.reportValue v).params = s.params := rfl
@[simp] theorem reportValue_inputs (s : State) (v : FnValue) : (s.reportValue v).inputs = s.inputs := rfl
@[simp] theorem reportValue_fnValue (s : State) (v : FnValue) : (s.reportValue v).fnValue = v := rfl

@[simp] theorem dropInput_core (s : State) : s.dropInput.core = s.core := rfl
@[simp] theorem dropInput_params (s : State) : s.dropInput.params = s.params := rfl
@[simp] theorem dropInput_inputs (s : State) : s.dropInput.inputs = s.inputs.tail := rfl
@[simp] theorem dropInput_fnValue (s : State) : s.dropInput.fnValue = s.fnValue := rfl

@[simp] theorem applyReset_core (s : State) : s.applyReset.core = CoreState.reset := rfl
@[simp] theorem applyReset_params (s : State) : s.applyReset.params = s.params := rfl
@[simp] theorem applyReset_inputs (s : State) : s.applyReset.inputs = s.inputs := rfl
@[simp] theorem applyReset_fnValue (s : State) : s.applyReset.fnValue = .none := rfl

end State

/-! ## Busy, by the acquisition state (spec 10 R21) -/

namespace CoreState

theorem busy_iff (c : CoreState) : c.busy = true ↔ c.st = .waitMarker ∨ c.st = .capture := by
  cases h : c.st <;> simp [busy, h]

theorem not_busy_iff (c : CoreState) : c.busy = false ↔ c.st = .idle ∨ c.st = .complete ∨ c.st = .timedOut := by
  cases h : c.st <;> simp [busy, h]

@[simp] theorem busy_reset : CoreState.reset.busy = false := rfl
@[simp] theorem busy_startAcquisition (c : CoreState) : c.startAcquisition.busy = true := rfl
@[simp] theorem busy_enterCapture (c : CoreState) : c.enterCapture.busy = true := rfl
@[simp] theorem busy_advance (fb : Frame) (c : CoreState) : (c.advance fb).busy = c.busy := rfl
@[simp] theorem busy_complete (fb : Frame) (c : CoreState) : (c.complete fb).busy = false := rfl
@[simp] theorem busy_publish (tv : TimeValue) (c : CoreState) : (c.publish tv).busy = c.busy := rfl
@[simp] theorem busy_raise_timeout (cause : AcqCause) (c : CoreState) : (raise (.timeout cause) c).busy = false := rfl

end CoreState

end Sys2Proof.Machine
end

