-- ==== Sys2Proof/Laws/Exec.lean ====
section
/-! SUPPORT. What each meaning can do, said once: later proofs cite these and do not unfold the meanings. -/

namespace Sys2Proof.Machine

/-! ## ACQUIRE, SYNC -/

theorem execAcquire_busy {s : State} (h : s.core.busy = true) (size : Nat) (frame : Frame) :
    execAcquire size frame s = .next s := by
  simp [execAcquire, h]

theorem execAcquire_start {s : State} (h : s.core.busy = false) (frame : Frame) :
    execAcquire 59 frame s = .next (s.withCore s.core.startAcquisition) := by
  simp [execAcquire, h]

theorem execAcquire_reject {s : State} (h : s.core.busy = false) {size : Nat} (hs : size ≠ 59) (frame : Frame) :
    execAcquire size frame s = .next (s.withCore (raise .acquireInvalidSize s.core)) := by
  unfold execAcquire
  rw [if_neg (by simp [h]), if_pos hs]

theorem execSync_marker {s : State} (h : s.core.st = .waitMarker) (dur : Nat) :
    execSync true dur s = .next (s.withCore s.core.enterCapture) := by
  simp [execSync, h]

theorem execSync_pulse (dur : Nat) (s : State) : execSync false dur s = .next s := by
  cases h : s.core.st <;> simp [execSync, h]

theorem execSync_elsewhere {s : State} (h : s.core.st ≠ .waitMarker) (noPulse : Bool) (dur : Nat) :
    execSync noPulse dur s = .next s := by
  cases hs : s.core.st <;> simp_all [execSync]

/-! ## CAPTURE -/

/-- Storing a bit inside the frame: the buffer is the written one, and `idx = 58` completes. -/
theorem storeBit_inside {s : State} (v : Bool) (h : s.core.idx.toNat < FRAME_LEN) :
    ∃ fb, memWrite s.core.fb s.core.idx.toNat v = some fb ∧
      storeBit v s = .next (s.withCore (if s.core.idx = 58 then s.core.complete fb else s.core.advance fb)) := by
  obtain ⟨fb, hfb⟩ := memWrite_inside s.core.fb v h
  refine ⟨fb, hfb, ?_⟩
  simp only [storeBit, hfb]
  split <;> simp [*]

/-- Storing a bit beyond the frame faults. -/
theorem storeBit_outside {s : State} (v : Bool) (h : FRAME_LEN ≤ s.core.idx.toNat) :
    storeBit v s = .fault .frameCellOutOfRange := by
  simp only [storeBit, memWrite_outside s.core.fb v h]

theorem execCapture_elsewhere {s : State} (h : s.core.st ≠ .capture) (noPulse : Bool) (dur : Nat) :
    execCapture noPulse dur s = .next s := by
  cases hs : s.core.st <;> simp_all [execCapture]

/-- Everything a `CAPTURE` step in `CAPTURE` does, by the classifier's result. -/
theorem execCapture_eq {s : State} (h : s.core.st = .capture) (noPulse : Bool) (dur : Nat) :
    execCapture noPulse dur s =
      match classify s.params noPulse dur with
      | .bit0 => storeBit false s
      | .bit1 => storeBit true s
      | .noPulse => .next (s.withCore (raise (.timeout .noPulse) s.core))
      | .outOfRange => .next (s.withCore (raise (.timeout .outOfRange) s.core)) := by
  cases hc : classify s.params noPulse dur <;> simp [execCapture, h, hc]

/-! ## DECODE -/

theorem execDecode_busy {s : State} (h : s.core.busy = true) (size : Nat) (frame : Frame) :
    execDecode size frame s = .next s := by
  simp [execDecode, h]

theorem execDecode_size {s : State} (h : s.core.busy = false) {size : Nat} (hs : size ≠ 59) (frame : Frame) :
    execDecode size frame s = .next (s.withCore (raise .decodeInvalidSize s.core)) := by
  simp only [execDecode, h, Bool.false_eq_true, if_false]
  rw [if_pos hs]

theorem execDecode_parity {s : State} (h : s.core.busy = false) {frame : Frame} (hp : parityOk frame = false) :
    execDecode 59 frame s = .next (s.withCore (raise .parityError s.core)) := by
  simp [execDecode, h, hp]

theorem execDecode_date {s : State} (h : s.core.busy = false) {frame : Frame} (hp : parityOk frame = true)
    (hd : plausOk (valueDay frame) (valueMonth frame) (valueYear frame) = false) :
    execDecode 59 frame s = .next (s.withCore (raise .dateError s.core)) := by
  simp [execDecode, h, hp, extractAll, hd]

theorem execDecode_success {s : State} (h : s.core.busy = false) {frame : Frame} (hp : parityOk frame = true)
    (hd : plausOk (valueDay frame) (valueMonth frame) (valueYear frame) = true) :
    execDecode 59 frame s = .next (s.withCore (s.core.publish (extractAll frame))) := by
  simp [execDecode, h, hp, extractAll, hd]

/-! ## The pure functions -/

/-- An operation that is a pure function (spec 00 section 4). -/
def isPure (i : Instr) : Bool :=
  match selectorOf i with
  | .cmd => false
  | .sync => false
  | .capture => false
  | .call _ => true

/-- A pure function reports a value and does nothing else. -/
theorem exec_pure {i : Instr} (h : isPure i = true) (s : State) : ∃ v, exec i s = .next (s.reportValue v) := by
  cases i <;> first | exact ⟨_, rfl⟩ | cases h

/-! ## What any operation can do to the core -/

/-- The changes an operation can make to the core, each with its condition. -/
inductive CoreMove (p : Params) (i : Instr) (c : CoreState) : CoreState → Prop where
  | stay : CoreMove p i c c
  | start (frame : Frame) (hi : i = .acquire 59 frame) (idle : c.busy = false) : CoreMove p i c c.startAcquisition
  | reject (size : Nat) (frame : Frame) (hi : i = .acquire size frame) (idle : c.busy = false) (hs : size ≠ 59) :
      CoreMove p i c (raise .acquireInvalidSize c)
  | marker (dur : Nat) (hi : i = .sync true dur) (st : c.st = .waitMarker) : CoreMove p i c c.enterCapture
  | store (noPulse : Bool) (dur : Nat) (v : Bool) (fb : Frame) (hi : i = .capture noPulse dur) (st : c.st = .capture)
      (hc : classify p noPulse dur = if v then .bit1 else .bit0)
      (hw : memWrite c.fb c.idx.toNat v = some fb) (hl : c.idx ≠ 58) : CoreMove p i c (c.advance fb)
  | last (noPulse : Bool) (dur : Nat) (v : Bool) (fb : Frame) (hi : i = .capture noPulse dur) (st : c.st = .capture)
      (hc : classify p noPulse dur = if v then .bit1 else .bit0)
      (hw : memWrite c.fb c.idx.toNat v = some fb) (hl : c.idx = 58) : CoreMove p i c (c.complete fb)
  | lost (noPulse : Bool) (dur : Nat) (hi : i = .capture noPulse dur) (st : c.st = .capture)
      (hc : classify p noPulse dur = .noPulse) : CoreMove p i c (raise (.timeout .noPulse) c)
  | bad (noPulse : Bool) (dur : Nat) (hi : i = .capture noPulse dur) (st : c.st = .capture)
      (hc : classify p noPulse dur = .outOfRange) : CoreMove p i c (raise (.timeout .outOfRange) c)
  | size (size : Nat) (frame : Frame) (hi : i = .decode size frame) (idle : c.busy = false) (hs : size ≠ 59) :
      CoreMove p i c (raise .decodeInvalidSize c)
  | parity (frame : Frame) (hi : i = .decode 59 frame) (idle : c.busy = false) (hp : parityOk frame = false) :
      CoreMove p i c (raise .parityError c)
  | date (frame : Frame) (hi : i = .decode 59 frame) (idle : c.busy = false) (hp : parityOk frame = true)
      (hd : plausOk (valueDay frame) (valueMonth frame) (valueYear frame) = false) : CoreMove p i c (raise .dateError c)
  | publish (frame : Frame) (hi : i = .decode 59 frame) (idle : c.busy = false) (hp : parityOk frame = true)
      (hd : plausOk (valueDay frame) (valueMonth frame) (valueYear frame) = true) :
      CoreMove p i c (c.publish (extractAll frame))

theorem execAcquire_move {size : Nat} {frame : Frame} {s t : State} (h : execAcquire size frame s = .next t) :
    CoreMove s.params (.acquire size frame) s.core t.core ∧ t.params = s.params ∧ t.inputs = s.inputs := by
  cases hb : s.core.busy
  case true => rw [execAcquire_busy hb] at h; cases h; exact ⟨.stay, rfl, rfl⟩
  case false =>
    by_cases hs : size = 59
    · subst hs; rw [execAcquire_start hb] at h; cases h; exact ⟨.start frame rfl hb, rfl, rfl⟩
    · rw [execAcquire_reject hb hs] at h; cases h; exact ⟨.reject size frame rfl hb hs, rfl, rfl⟩

theorem execSync_move {noPulse : Bool} {dur : Nat} {s t : State} (h : execSync noPulse dur s = .next t) :
    CoreMove s.params (.sync noPulse dur) s.core t.core ∧ t.params = s.params ∧ t.inputs = s.inputs := by
  cases noPulse
  case false => rw [execSync_pulse] at h; cases h; exact ⟨.stay, rfl, rfl⟩
  case true =>
    by_cases hst : s.core.st = .waitMarker
    · rw [execSync_marker hst] at h; cases h; exact ⟨.marker dur rfl hst, rfl, rfl⟩
    · rw [execSync_elsewhere hst] at h; cases h; exact ⟨.stay, rfl, rfl⟩

theorem storeBit_move {noPulse : Bool} {dur : Nat} {v : Bool} {s t : State} (hst : s.core.st = .capture)
    (hc : classify s.params noPulse dur = if v then .bit1 else .bit0) (h : storeBit v s = .next t) :
    CoreMove s.params (.capture noPulse dur) s.core t.core ∧ t.params = s.params ∧ t.inputs = s.inputs := by
  by_cases hin : s.core.idx.toNat < FRAME_LEN
  case neg => rw [storeBit_outside v (Nat.not_lt.mp hin)] at h; cases h
  case pos =>
    obtain ⟨fb, hfb, he⟩ := storeBit_inside v hin
    rw [he] at h
    cases h
    by_cases hl : s.core.idx = 58
    · simp only [hl, if_true]; exact ⟨.last noPulse dur v fb rfl hst hc hfb hl, rfl, rfl⟩
    · simp only [hl, if_false]; exact ⟨.store noPulse dur v fb rfl hst hc hfb hl, rfl, rfl⟩

theorem execCapture_move {noPulse : Bool} {dur : Nat} {s t : State} (h : execCapture noPulse dur s = .next t) :
    CoreMove s.params (.capture noPulse dur) s.core t.core ∧ t.params = s.params ∧ t.inputs = s.inputs := by
  by_cases hst : s.core.st = .capture
  case neg => rw [execCapture_elsewhere hst] at h; cases h; exact ⟨.stay, rfl, rfl⟩
  case pos =>
    rw [execCapture_eq hst] at h
    cases hc : classify s.params noPulse dur <;> simp only [hc] at h
    case bit0 => exact storeBit_move (v := false) hst (by simpa using hc) h
    case bit1 => exact storeBit_move (v := true) hst (by simpa using hc) h
    case noPulse => cases h; exact ⟨.lost noPulse dur rfl hst hc, rfl, rfl⟩
    case outOfRange => cases h; exact ⟨.bad noPulse dur rfl hst hc, rfl, rfl⟩

theorem execDecode_move {size : Nat} {frame : Frame} {s t : State} (h : execDecode size frame s = .next t) :
    CoreMove s.params (.decode size frame) s.core t.core ∧ t.params = s.params ∧ t.inputs = s.inputs := by
  cases hb : s.core.busy
  case true => rw [execDecode_busy hb] at h; cases h; exact ⟨.stay, rfl, rfl⟩
  by_cases hs : size = 59
  case neg => rw [execDecode_size hb hs] at h; cases h; exact ⟨.size size frame rfl hb hs, rfl, rfl⟩
  subst hs
  cases hp : parityOk frame
  case false => rw [execDecode_parity hb hp] at h; cases h; exact ⟨.parity frame rfl hb hp, rfl, rfl⟩
  cases hd : plausOk (valueDay frame) (valueMonth frame) (valueYear frame)
  case false => rw [execDecode_date hb hp hd] at h; cases h; exact ⟨.date frame rfl hb hp hd, rfl, rfl⟩
  case true => rw [execDecode_success hb hp hd] at h; cases h; exact ⟨.publish frame rfl hb hp hd, rfl, rfl⟩

/-- What an operation that answers a next state can do: one of the moves on the core, and no change of the parameters or
the inputs. -/
theorem exec_move {i : Instr} {s t : State} (h : exec i s = .next t) :
    CoreMove s.params i s.core t.core ∧ t.params = s.params ∧ t.inputs = s.inputs := by
  by_cases hp : isPure i = true
  case pos =>
    obtain ⟨v, hv⟩ := exec_pure hp s
    rw [hv] at h
    cases h
    exact ⟨.stay, rfl, rfl⟩
  case neg =>
    cases i
    case acquire size frame => exact execAcquire_move h
    case sync noPulse dur => exact execSync_move h
    case capture noPulse dur => exact execCapture_move h
    case decode size frame => exact execDecode_move h
    case nop => cases h; exact ⟨.stay, rfl, rfl⟩
    case rsvd => cases h; exact ⟨.stay, rfl, rfl⟩
    all_goals exact absurd rfl hp

/-- An operation faults only as a `CAPTURE` step with a bit to store beyond the frame. -/
theorem exec_fault {i : Instr} {s : State} {f : Fault} (h : exec i s = .fault f) :
    s.core.st = .capture ∧ FRAME_LEN ≤ s.core.idx.toNat ∧
      ∃ (noPulse : Bool) (dur : Nat) (v : Bool),
        i = .capture noPulse dur ∧ classify s.params noPulse dur = (if v then .bit1 else .bit0) := by
  cases i
  case acquire size frame => simp only [exec, execAcquire] at h; split at h <;> first | cases h | (split at h <;> cases h)
  case sync noPulse dur => simp only [exec, execSync] at h; split at h <;> first | cases h | (split at h <;> cases h)
  case decode size frame =>
    simp only [exec, execDecode] at h
    split at h
    · cases h
    · split at h
      · cases h
      · split at h
        · cases h
        · split at h <;> cases h
  case capture noPulse dur =>
    change execCapture noPulse dur s = _ at h
    by_cases hst : s.core.st = .capture
    case neg => rw [execCapture_elsewhere hst] at h; cases h
    rw [execCapture_eq hst] at h
    have beyond : ∀ v, storeBit v s = .fault f → FRAME_LEN ≤ s.core.idx.toNat := by
      intro v hv
      by_contra hn
      obtain ⟨fb, -, he⟩ := storeBit_inside v (Nat.not_le.mp hn)
      rw [he] at hv
      cases hv
    cases hc : classify s.params noPulse dur <;> simp only [hc] at h
    case bit0 => exact ⟨hst, beyond false h, noPulse, dur, false, rfl, by simpa using hc⟩
    case bit1 => exact ⟨hst, beyond true h, noPulse, dur, true, rfl, by simpa using hc⟩
    case noPulse => cases h
    case outOfRange => cases h
  all_goals cases h

end Sys2Proof.Machine
end

