-- ==== Sys2Proof/Laws/PerInstr.lean ====
section
/-! SUPPORT. A fact about every operation as syntax, one lemma per constructor: its encoding is a well-formed packet. -/

namespace Sys2Proof.Laws.WellFormedEncoding

/-- The encoding of an operation that is well formed for some widths has its format's bytes and no bit beyond its format's
width there. -/
def Statement (i : Instr) : Prop := ∀ w : Widths, i.wf w = true → (encode w i).wf w = true

/-- Any operation at all. -/
theorem any (i : Instr) : Statement i := by
  intro w h
  have hl := encodeValue_lt h
  have hv := leValue_leBytes_of_lt (lt_of_lt_of_le hl (format_fits w (selectorOf i).format))
  simp only [Packet.wf, encode, leBytes_length, beq_self_eq_true, Bool.true_and, hv, decide_eq_true_eq]
  exact hl

theorem classify (noPulse : Bool) (dur : Nat) : Statement (.classify noPulse dur) := any _
theorem acquire (size : Nat) (frame : Frame) : Statement (.acquire size frame) := any _
theorem sync (noPulse : Bool) (dur : Nat) : Statement (.sync noPulse dur) := any _
theorem capture (noPulse : Bool) (dur : Nat) : Statement (.capture noPulse dur) := any _
theorem extractTf (frame : Frame) : Statement (.extractTf frame) := any _
theorem extractA1 (frame : Frame) : Statement (.extractA1 frame) := any _
theorem extractMinute (frame : Frame) : Statement (.extractMinute frame) := any _
theorem extractHour (frame : Frame) : Statement (.extractHour frame) := any _
theorem extractDay (frame : Frame) : Statement (.extractDay frame) := any _
theorem extractWeekday (frame : Frame) : Statement (.extractWeekday frame) := any _
theorem extractMonth (frame : Frame) : Statement (.extractMonth frame) := any _
theorem extractYear (frame : Frame) : Statement (.extractYear frame) := any _
theorem parityMinute (frame : Frame) : Statement (.parityMinute frame) := any _
theorem parityHour (frame : Frame) : Statement (.parityHour frame) := any _
theorem parityDate (frame : Frame) : Statement (.parityDate frame) := any _
theorem plaus (day : BitVec 6) (month : BitVec 5) (year : BitVec 8) : Statement (.plaus day month year) := any _
theorem decode (size : Nat) (frame : Frame) : Statement (.decode size frame) := any _
theorem nop (size : Nat) (frame : Frame) : Statement (.nop size frame) := any _
theorem rsvd (size : Nat) (frame : Frame) : Statement (.rsvd size frame) := any _

end Sys2Proof.Laws.WellFormedEncoding
end

