-- ==== Sys2Proof/Laws/Step.lean ====
section
/-! SUPPORT. What an input comes to, and what a step can do. -/

namespace Sys2Proof.Machine

/-! ## One step -/

theorem step_nil {s : State} (h : s.inputs = []) : step s = .next s := by
  simp only [step, stepInput, h]

theorem step_cons {s : State} {i : Input} {rest : List Input} (h : s.inputs = i :: rest) :
    step s = runFetched (fetch s.params.widths s.core i) { s with inputs := rest } := by
  simp only [step, stepInput, h, State.dropInput, List.tail_cons]

theorem step_nothing {s : State} {i : Input} {rest : List Input} (h : s.inputs = i :: rest)
    (hf : fetch s.params.widths s.core i = .nothing) : step s = .next { s with inputs := rest } := by
  rw [step_cons h, hf]; rfl

theorem step_reset {s : State} {i : Input} {rest : List Input} (h : s.inputs = i :: rest) (hf : fetch s.params.widths s.core i = .reset) :
    step s = .next ({ s with inputs := rest } : State).applyReset := by
  rw [step_cons h, hf]; rfl

theorem step_packet {s : State} {inp : Input} {rest : List Input} {p : Packet} {i : Instr} (h : s.inputs = inp :: rest)
    (hf : fetch s.params.widths s.core inp = .packet p) (hd : decode s.params.widths p = .ok i) : step s = exec i { s with inputs := rest } := by
  rw [step_cons h, hf]; simp only [runFetched, hd]

/-- What a step that answers a next state can do. -/
theorem step_cases {s t : State} (h : step s = .next t) :
    t = s ∧ s.inputs = [] ∨
    ∃ inp rest, s.inputs = inp :: rest ∧
      (fetch s.params.widths s.core inp = .nothing ∧ t = { s with inputs := rest } ∨
       fetch s.params.widths s.core inp = .reset ∧ t = ({ s with inputs := rest } : State).applyReset ∨
       ∃ p i, fetch s.params.widths s.core inp = .packet p ∧ decode s.params.widths p = .ok i ∧ exec i { s with inputs := rest } = .next t) := by
  cases hi : s.inputs
  case nil => rw [step_nil hi] at h; cases h; exact .inl ⟨rfl, rfl⟩
  case cons inp rest =>
    refine .inr ⟨inp, rest, rfl, ?_⟩
    rw [step_cons hi] at h
    cases hf : fetch s.params.widths s.core inp <;> rw [hf] at h
    case nothing => cases h; exact .inl ⟨rfl, rfl⟩
    case reset => cases h; exact .inr (.inl ⟨rfl, rfl⟩)
    case packet p =>
      cases hd : decode s.params.widths p <;> simp only [runFetched, hd] at h
      case error => cases h
      case ok i => exact .inr (.inr ⟨p, i, rfl, hd, h⟩)

/-- A step runs Reset and gives the reset core, or keeps the core, or runs an operation that makes one of its moves. -/
theorem step_move {s t : State} (h : step s = .next t) :
    (∃ inp, s.inputs.head? = some inp ∧ fetch s.params.widths s.core inp = .reset ∧ t.core = CoreState.reset) ∨
      t.core = s.core ∨
      ∃ inp p i, s.inputs.head? = some inp ∧ fetch s.params.widths s.core inp = .packet p ∧ decode s.params.widths p = .ok i ∧
        CoreMove s.params i s.core t.core := by
  rcases step_cases h with ⟨rfl, -⟩ | ⟨inp, rest, hi, ⟨-, rfl⟩ | ⟨hf, rfl⟩ | ⟨p, i, hf, hd, he⟩⟩
  · exact .inr (.inl rfl)
  · exact .inr (.inl rfl)
  · exact .inl ⟨inp, by rw [hi]; rfl, hf, rfl⟩
  · exact .inr (.inr ⟨inp, p, i, by rw [hi]; rfl, hf, hd, (exec_move he).1⟩)

/-! ## What is fetched -/

@[simp] theorem fetch_reset (w : Widths) (c : CoreState) : fetch w c (.event .reset) = .reset := rfl

theorem fetch_present {w : Widths} {c : CoreState} {port : Port} {sel : Selector} (bytes : List Byte) (h : select c port = some sel) :
    fetch w c (.event (.present port bytes)) = .packet { sel := sel, bytes := bytes } := by
  simp only [fetch, inputEvent, h]

theorem fetch_present_none {w : Widths} {c : CoreState} {port : Port} (bytes : List Byte) (h : select c port = none) :
    fetch w c (.event (.present port bytes)) = .nothing := by
  simp only [fetch, inputEvent, h]

theorem select_cmd_idle {c : CoreState} (h : c.busy = false) : select c .cmd = some .cmd := by simp [select, h]
theorem select_cmd_busy {c : CoreState} (h : c.busy = true) : select c .cmd = none := by simp [select, h]
theorem select_rsp_wait {c : CoreState} (h : c.st = .waitMarker) : select c .rsp = some .sync := by simp [select, h]
theorem select_rsp_capture {c : CoreState} (h : c.st = .capture) : select c .rsp = some .capture := by simp [select, h]
theorem select_rsp_idle {c : CoreState} (h : c.busy = false) : select c .rsp = none := by
  rcases (CoreState.not_busy_iff c).mp h with h | h | h <;> simp [select, h]

/-- An edge with a reset. -/
theorem fetch_edge_reset {w : Widths} {c : CoreState} {p : Ports} (h : p.rst = true) : fetch w c (.edge p) = .reset := by
  simp [fetch, inputEvent, edgeEvent, h]

/-- An edge with an accepted command. -/
theorem fetch_edge_cmd {w : Widths} {c : CoreState} {p : Ports} (hr : p.rst = false) (hv : p.cmdValid = true) (hb : c.busy = false) :
    fetch w c (.edge p) = .packet { sel := .cmd, bytes := cmdBytes w p.cmdOp p.cmdSize p.cmdFrame } := by
  simp [fetch, inputEvent, edgeEvent, hr, hv, hb, select_cmd_idle hb]

/-- An edge with an accepted response. -/
theorem fetch_edge_rsp {w : Widths} {c : CoreState} {p : Ports} {sel : Selector} (hr : p.rst = false) (hv : p.psValid = true)
    (hb : c.busy = true) (hs : select c .rsp = some sel) :
    fetch w c (.edge p) = .packet { sel := sel, bytes := rspBytes w p.psNoPulse p.psDuration } := by
  simp [fetch, inputEvent, edgeEvent, hr, hv, hb, hs]

/-- An edge with nothing the block takes. -/
theorem fetch_edge_nothing {w : Widths} {c : CoreState} {p : Ports} (hr : p.rst = false) (hc : (p.cmdValid && !c.busy) = false)
    (hv : (p.psValid && c.busy) = false) : fetch w c (.edge p) = .nothing := by
  simp [fetch, inputEvent, edgeEvent, hr, hc, hv]

/-! ## What the fetched words decode to -/

/-- The bytes of a command word decode by its opcode. -/
theorem decode_cmdBytes {w : Widths} {size : Nat} (op : BitVec 2) (frame : Frame) (h : size < 2 ^ w.sizeW) :
    decode w { sel := .cmd, bytes := cmdBytes w op size frame } = .ok (decodeCW w (packCW w op size frame)) := by
  rw [cmdBytes, if_pos (fits_size.mpr h)]
  exact decode_leBytes (sel := .cmd) (packCW_lt op frame h)

theorem decode_nopBytes {w : Widths} {size : Nat} (frame : Frame) (h : size < 2 ^ w.sizeW) :
    decode w { sel := .cmd, bytes := cmdBytes w OP_NOP size frame } = .ok (.nop size frame) := by
  rw [decode_cmdBytes _ _ h]; simp [decodeCW, cwOp_packCW, cwSize_packCW, h]

theorem decode_acquireBytes {w : Widths} {size : Nat} (frame : Frame) (h : size < 2 ^ w.sizeW) :
    decode w { sel := .cmd, bytes := cmdBytes w OP_ACQUIRE size frame } = .ok (.acquire size frame) := by
  rw [decode_cmdBytes _ _ h]; simp [decodeCW, cwOp_packCW, cwSize_packCW, h]

theorem decode_decodeBytes {w : Widths} {size : Nat} (frame : Frame) (h : size < 2 ^ w.sizeW) :
    decode w { sel := .cmd, bytes := cmdBytes w OP_DECODE size frame } = .ok (.decode size frame) := by
  rw [decode_cmdBytes _ _ h]; simp [decodeCW, cwOp_packCW, cwSize_packCW, h]

theorem decode_rsvdBytes {w : Widths} {size : Nat} (frame : Frame) (h : size < 2 ^ w.sizeW) :
    decode w { sel := .cmd, bytes := cmdBytes w OP_RSVD size frame } = .ok (.rsvd size frame) := by
  rw [decode_cmdBytes _ _ h]; simp [decodeCW, cwOp_packCW, cwSize_packCW, h]

theorem decode_rspBytes_sync {w : Widths} {dur : Nat} (noPulse : Bool) (h : dur < 2 ^ w.durW) :
    decode w { sel := .sync, bytes := rspBytes w noPulse dur } = .ok (.sync noPulse dur) := by
  rw [rspBytes, if_pos (fits_dur.mpr h)]
  refine (decode_leBytes (sel := .sync) (packRW_lt noPulse h)).trans ?_
  simp [decodeValue, rwNoPulse_packRW, rwDur_packRW, h]

theorem decode_rspBytes_capture {w : Widths} {dur : Nat} (noPulse : Bool) (h : dur < 2 ^ w.durW) :
    decode w { sel := .capture, bytes := rspBytes w noPulse dur } = .ok (.capture noPulse dur) := by
  rw [rspBytes, if_pos (fits_dur.mpr h)]
  refine (decode_leBytes (sel := .capture) (packRW_lt noPulse h)).trans ?_
  simp [decodeValue, rwNoPulse_packRW, rwDur_packRW, h]

/-- A value that does not fit its port gives no word, and the decoder refuses it. -/
theorem decode_cmdBytes_wide {w : Widths} {size : Nat} (op : BitVec 2) (frame : Frame) (h : 2 ^ w.sizeW ≤ size) :
    decode w { sel := .cmd, bytes := cmdBytes w op size frame } = .error .wrongLength := by
  rw [cmdBytes, if_neg (fun hf => Nat.not_lt.mpr h (fits_size.mp hf))]
  exact decode_nil (sel := .cmd) (Nat.succ_pos _)

theorem decode_rspBytes_wide {w : Widths} {dur : Nat} {sel : Selector} (noPulse : Bool) (h : 2 ^ w.durW ≤ dur)
    (hs : sel.format = .rw) : decode w { sel := sel, bytes := rspBytes w noPulse dur } = .error .wrongLength := by
  rw [rspBytes, if_neg (fun hf => Nat.not_lt.mpr h (fits_dur.mp hf))]
  refine decode_nil ?_
  rw [hs]
  simp only [Format.width]
  omega

/-- A packet the decoder refuses is refused by the step, by the decoder's name. -/
theorem step_refused {s : State} {inp : Input} {rest : List Input} {p : Packet} {e : DecodeError}
    (h : s.inputs = inp :: rest) (hf : fetch s.params.widths s.core inp = .packet p)
    (hd : decode s.params.widths p = .error e) : step s = .refused (.illFormedWord e) := by
  rw [step_cons h, hf]; simp only [runFetched, hd]

end Sys2Proof.Machine
end

