-- ==== Sys2Proof/Tests/Slice0.lean ====
section
/-! SUPPORT. The model's own tests. Expected values come from spec 95 (the vector's id stands at each test) or are computed
by hand from the rule named there, never from the model. -/

namespace Sys2Proof.Tests

open Sys2Proof.Machine Sys2Proof.Claims

/-! ## Helpers -/

/-- The default widths, those of the test states. -/
abbrev W : Widths := Widths.default

/-- A state with the example parameters P0 (spec 92 D29). -/
def stateOf (c : CoreState) (inputs : List Input := []) : State :=
  { core := c, params := Params.P0, inputs := inputs, fnValue := .none }

/-- A core in a given `st`, `idx`, buffer, result and cause, nothing decoded. -/
def coreOf (st : AcqState) (idx : BitVec 6) (fb : Frame) (r : AcqResult := .none) (cause : AcqCause := .none) : CoreState :=
  { CoreState.reset with st := st, idx := idx, fb := fb, acqResult := r, acqCause := cause }

/-- The state of an outcome, if it is a next state. -/
def nextOf (o : Host.Outcome State Fault Refusal) : Option State :=
  match o with
  | .next s => some s
  | .fault _ => none
  | .refused _ => none

/-- The core after an operation. -/
def coreAfter (i : Instr) (c : CoreState) : Option CoreState := (nextOf (exec i (stateOf c))).map (·.core)

/-- The value a pure function reports. -/
def valueOf (i : Instr) : Option FnValue := (nextOf (exec i (stateOf CoreState.reset))).map (·.fnValue)

/-- `dec_result` and `TV` after an operation from reset. -/
def decoded (i : Instr) : Option (DecResult × TimeValue) :=
  (coreAfter i CoreState.reset).map fun c => (c.decResult, c.tv)

/-- The frames A, D, M and O of spec 95. -/
def frameA : Frame := 0x49a290256540000
def frameD : Frame := 0x666571c6b218000
def frameM : Frame := 0x3fffff7ffffffff
def frameO : Frame := 0x7ffffffffffffff

/-- A complete frame A. -/
def completeA : CoreState := coreOf .complete 59 frameA .success

/-! ## Well-formedness: each check refuses its ill-formed term -/

/-- P0's numbers with other values for some. -/
def built (w : Widths) (t : Times) : Option Params := Params.build { widths := w, times := t }

theorem test_params_low_not_below_bit0 : built Widths.default { Times.P0 with lowMin := 150000 } = none := by decide
theorem test_params_bit0_not_below_bit1 : built Widths.default { Times.P0 with bit0Max := 250000 } = none := by decide
theorem test_params_bit1_too_wide : built Widths.default { Times.P0 with bit1Max := 2 ^ 32 } = none := by decide
theorem test_params_timeout_zero : built Widths.default { Times.P0 with pulseTimeout := 0 } = none := by decide
theorem test_params_timeout_too_wide : built Widths.default { Times.P0 with pulseTimeout := 2 ^ 32 } = none := by decide
theorem test_params_no_duration : built { durW := 0, sizeW := 8 } Times.P0 = none := by decide
theorem test_params_size_below_six : built { durW := 32, sizeW := 5 } Times.P0 = none := by decide
theorem test_params_accepted : (built Widths.default Times.P0).isSome = true ∧
    (built { durW := 21, sizeW := 6 } Times.P0).isSome = true ∧ (built { durW := 40, sizeW := 16 } Times.P0).isSome = true := by
  decide
theorem test_size_too_wide : (Instr.acquire 256 0).wf Widths.default = false ∧
    (Instr.decode 256 0).wf Widths.default = false ∧ (Instr.nop 256 0).wf Widths.default = false ∧
    (Instr.rsvd 256 0).wf Widths.default = false ∧ (Instr.acquire 256 0).wf { durW := 32, sizeW := 9 } = true := by decide
theorem test_duration_too_wide : (Instr.sync false (2 ^ 32)).wf Widths.default = false ∧
    (Instr.capture false (2 ^ 32)).wf Widths.default = false ∧
    (Instr.classify false (2 ^ 32)).wf Widths.default = false ∧
    (Instr.sync false (2 ^ 32)).wf { durW := 33, sizeW := 8 } = true := by decide
theorem test_reserved_may_not_be_issued : (Instr.rsvd 0 0).mayIssue = false ∧ (Instr.nop 0 0).mayIssue = true := by decide
theorem test_packet_wrong_length : Packet.wf Widths.default { sel := .cmd, bytes := leBytes 8 0 } = false := by decide
theorem test_packet_padding_set : Packet.wf Widths.default { sel := .cmd, bytes := leBytes 9 (2 ^ 69) } = false := by decide
theorem test_decode_wrong_length : decode Widths.default { sel := .sync, bytes := [] } = .error .wrongLength := by rfl
theorem test_decode_padding_set : decode Widths.default { sel := .sync, bytes := leBytes 5 (2 ^ 33) } = .error .paddingSet := by rfl

/-! ## Decoding words written out from the spec's encodings -/

/-- spec 30 R53, R54; V-A1, V-A6. -/
theorem test_decode_acquire : decodeTableWord 72 0x9d800000000000000 = some (.acquire 59 0) ∧
    decodeTableWord 72 0x9dfffffffffffffff = some (.acquire 59 0x7ffffffffffffff) := by decide

/-- V-D1, V-D13. -/
theorem test_decode_decode : decodeTableWord 72 0x11dc9a290256540000 = some (.decode 59 frameA) ∧
    decodeTableWord 72 0x11d49a290256540000 = some (.decode 58 frameA) := by decide

/-- V-N1, V-N2, V-N3. -/
theorem test_decode_nop_rsvd : decodeTableWord 72 0x0 = some (.nop 0 0) ∧
    decodeTableWord 72 0x180000000000000000 = some (.rsvd 0 0) ∧
    decodeTableWord 72 0x01dc9a290256540000 = some (.nop 59 frameA) := by decide

/-- spec 30 R55; V-S1, V-S7, V-K1. -/
theorem test_decode_responses :
    decode Widths.default { sel := .sync, bytes := [0xa0, 0x86, 0x01, 0x00, 0x00] } = .ok (.sync false 100000) ∧
    decode Widths.default { sel := .sync, bytes := [0x40, 0xe2, 0x01, 0x00, 0x01] } = .ok (.sync true 123456) ∧
    decode Widths.default { sel := .capture, bytes := [0x40, 0x0d, 0x03, 0x00, 0x00] } = .ok (.capture false 200000) ∧
    decode Widths.default { sel := .call .classify, bytes := [0xa0, 0x86, 0x01, 0x00, 0x01] } = .ok (.classify true 100000) :=
  ⟨rfl, rfl, rfl, rfl⟩

/-- The fields move with the widths: at `SIZE_W = 6`, `size` is bits 64:59 and `op` bits 66:65; at `DUR_W = 8`, `dur` is bits
7:0 and `no_pulse` bit 8. -/
theorem test_decode_other_widths :
    decode { durW := 8, sizeW := 6 } { sel := .cmd, bytes := [1, 0, 0, 0, 0, 0, 0, 0xd8, 3] } = .ok (.acquire 59 1) ∧
    decode { durW := 8, sizeW := 6 } { sel := .capture, bytes := [0xa0, 0x01] } = .ok (.capture true 0xa0) ∧
    decode { durW := 8, sizeW := 6 } { sel := .capture, bytes := [0xa0, 0x01, 0, 0, 0] } = .error .wrongLength :=
  ⟨rfl, rfl, rfl⟩

/-- A frame word is the frame, whichever function is called on it (spec 20 R34): frame A's bytes, lowest indices first. -/
def bytesA : List Byte := [0x00, 0x00, 0x54, 0x56, 0x02, 0x29, 0x9a, 0x04]

theorem test_decode_extract :
    decode Widths.default { sel := .call .extractTf, bytes := bytesA } = .ok (.extractTf frameA) ∧
    decode Widths.default { sel := .call .extractA1, bytes := bytesA } = .ok (.extractA1 frameA) ∧
    decode Widths.default { sel := .call .extractMinute, bytes := bytesA } = .ok (.extractMinute frameA) ∧
    decode Widths.default { sel := .call .extractHour, bytes := bytesA } = .ok (.extractHour frameA) ∧
    decode Widths.default { sel := .call .extractDay, bytes := bytesA } = .ok (.extractDay frameA) ∧
    decode Widths.default { sel := .call .extractWeekday, bytes := bytesA } = .ok (.extractWeekday frameA) ∧
    decode Widths.default { sel := .call .extractMonth, bytes := bytesA } = .ok (.extractMonth frameA) ∧
    decode Widths.default { sel := .call .extractYear, bytes := bytesA } = .ok (.extractYear frameA) :=
  ⟨rfl, rfl, rfl, rfl, rfl, rfl, rfl, rfl⟩

theorem test_decode_parity :
    decode Widths.default { sel := .call .parityMinute, bytes := bytesA } = .ok (.parityMinute frameA) ∧
    decode Widths.default { sel := .call .parityHour, bytes := bytesA } = .ok (.parityHour frameA) ∧
    decode Widths.default { sel := .call .parityDate, bytes := bytesA } = .ok (.parityDate frameA) :=
  ⟨rfl, rfl, rfl⟩

/-- The model's own layout (log 7): day 10, month 11, year 26 as 10 * 2^13 + 11 * 2^8 + 26. -/
theorem test_decode_plaus : decodeTableWord 24 84762 = some (.plaus 10 11 26) := by decide

/-! ## Meanings -/

/-- V-C3, V-C6, V-C9, V-C10: the interval bounds. -/
theorem test_classify_bounds :
    valueOf (.classify false 50000) = some (.classify .outOfRange) ∧
    valueOf (.classify false 150000) = some (.classify .bit0) ∧
    valueOf (.classify false 250000) = some (.classify .bit1) ∧
    valueOf (.classify false 250001) = some (.classify .outOfRange) := by decide

/-- V-C14: the sentinel wins. -/
theorem test_classify_sentinel : valueOf (.classify true 100000) = some (.classify .noPulse) := by decide

/-- V-A9. -/
theorem test_acquire_restarts : coreAfter (.acquire 59 0) (coreOf .timedOut 21 0x140000 .timeout .noPulse) =
    some (coreOf .waitMarker 0 0x140000) := by decide

/-- V-A10. -/
theorem test_acquire_wrong_size : coreAfter (.acquire 60 0) (coreOf .timedOut 21 0x140000 .timeout .noPulse) =
    some (coreOf .timedOut 21 0x140000 .invalidSize) := by decide

/-- V-S4. -/
theorem test_sync_pulse : coreAfter (.sync false 300000) (coreOf .waitMarker 0 5) = some (coreOf .waitMarker 0 5) := by decide

/-- V-S7. -/
theorem test_sync_marker : coreAfter (.sync true 123456) (coreOf .waitMarker 0 5) = some (coreOf .capture 0 5) := by decide

/-- V-K3. -/
theorem test_capture_last_bit : coreAfter (.capture false 200000) (coreOf .capture 58 0x09a290256540000) =
    some completeA := by decide

/-- V-K13: a zero duration is out of range, cause 2. -/
theorem test_capture_zero_duration : coreAfter (.capture false 0) (coreOf .capture 5 0x16) =
    some (coreOf .timedOut 5 0x16 .timeout .outOfRange) := by decide

/-- V-X16, V-D1. -/
theorem test_extract_tf : valueOf (.extractTf frameD) = some (.extractTf 1) ∧ valueOf (.extractTf frameA) = some (.extractTf 0) := by
  decide

/-- V-X17: only position 16 set. -/
theorem test_extract_a1 : valueOf (.extractA1 0x10000) = some (.extractA1 1) ∧ valueOf (.extractTf 0x10000) = some (.extractTf 0) := by
  decide

/-- V-X1, V-X2, V-X3. -/
theorem test_extract_minute : valueOf (.extractMinute frameA) = some (.extractMinute 32) ∧
    valueOf (.extractMinute frameD) = some (.extractMinute 59) ∧
    valueOf (.extractMinute frameO) = some (.extractMinute 85) := by decide

/-- V-X5, V-X6. -/
theorem test_extract_hour : valueOf (.extractHour frameD) = some (.extractHour 23) ∧
    valueOf (.extractHour frameO) = some (.extractHour 45) := by decide

/-- V-X7, V-D1. -/
theorem test_extract_day : valueOf (.extractDay frameD) = some (.extractDay 31) ∧
    valueOf (.extractDay frameA) = some (.extractDay 10) := by decide

/-- V-X13, V-D1. -/
theorem test_extract_weekday : valueOf (.extractWeekday frameD) = some (.extractWeekday 5) ∧
    valueOf (.extractWeekday frameA) = some (.extractWeekday 2) := by decide

/-- V-X11, V-X12. -/
theorem test_extract_month : valueOf (.extractMonth frameD) = some (.extractMonth 12) ∧
    valueOf (.extractMonth frameO) = some (.extractMonth 25) := by decide

/-- V-X8, V-X9, V-X10 (only position 57 set). -/
theorem test_extract_year : valueOf (.extractYear frameO) = some (.extractYear 165) ∧
    valueOf (.extractYear frameD) = some (.extractYear 99) ∧
    valueOf (.extractYear 0x200000000000000) = some (.extractYear 80) := by decide

/-- V-P1, V-P5. -/
theorem test_parity_minute : valueOf (.parityMinute frameA) = some (.parityMinute true) ∧
    valueOf (.parityMinute 0x49a290256140000) = some (.parityMinute false) := by decide

/-- V-P3, V-P7. -/
theorem test_parity_hour : valueOf (.parityHour frameO) = some (.parityHour false) ∧
    valueOf (.parityHour 0x49a2902d6540000) = some (.parityHour false) ∧
    valueOf (.parityHour frameA) = some (.parityHour true) := by decide

/-- V-P8, V-P9, V-P10. -/
theorem test_parity_date : valueOf (.parityDate 0x49e290256540000) = some (.parityDate false) ∧
    valueOf (.parityDate 0x09a290256540000) = some (.parityDate false) ∧
    valueOf (.parityDate 0x49e291256540000) = some (.parityDate true) := by decide

/-- V-L2, V-L3, V-L4, V-L6. -/
theorem test_plaus : valueOf (.plaus 0 11 26) = some (.plaus false) ∧ valueOf (.plaus 10 0 26) = some (.plaus false) ∧
    valueOf (.plaus 10 11 0) = some (.plaus false) ∧ valueOf (.plaus 45 25 165) = some (.plaus true) := by decide

/-- V-D2, V-D3. -/
theorem test_decode_success :
    decoded (.decode 59 frameD) = some (.success, ⟨1, 1, 59, 23, 31, 5, 12, 99⟩) ∧
    decoded (.decode 59 frameM) = some (.success, ⟨1, 1, 85, 45, 45, 7, 25, 165⟩) := by decide

/-- V-D9, V-D12, V-D13: date, then parity over date, then size over all. -/
theorem test_decode_errors :
    decoded (.decode 59 0x09a280256400000) = some (.dateError, TimeValue.zero) ∧
    decoded (.decode 59 0x09a280246400000) = some (.parityError, TimeValue.zero) ∧
    decoded (.decode 58 frameA) = some (.invalidSize, TimeValue.zero) := by decide

/-- V-N3. -/
theorem test_nop : coreAfter (.nop 59 frameA) completeA = some completeA := by decide

/-- V-N2. -/
theorem test_rsvd : coreAfter (.rsvd 0 0) completeA = some completeA := by decide

/-- V-R1. -/
theorem test_reset_event :
    (nextOf (step (stateOf (coreOf .capture 3 0x7) [.event .reset]))).map (·.core) = some CoreState.reset := by decide

/-- V-K14 and V-N4: a response while nothing runs, a command while an acquisition runs. -/
theorem test_not_enabled :
    (nextOf (step (stateOf completeA [response W false 100000]))).map (·.core) = some completeA ∧
    (nextOf (step (stateOf (coreOf .waitMarker 0 0) [.event (.present .cmd (cmdBytes W OP_ACQUIRE 58 0))]))).map (·.core) =
      some (coreOf .waitMarker 0 0) := by decide

/-- The word placed for the next step is run from reset, whatever the open parameters are. -/
theorem test_fetch_word_from_reset :
    (nextOf (step (State.reset.withFetchWord 72 0x9d800000000000000))).map (·.core) = some (coreOf .waitMarker 0 0) ∧
    (nextOf (step (State.reset.withFetchWord 40 0x100000000))).map (·.core) = some (coreOf .capture 0 0) ∧
    (nextOf (step (State.reset.withFetchWord 64 0x8000))).map (·.fnValue) = some (.extractTf 1) ∧
    (nextOf (step (State.reset.withFetchWord 24 84762))).map (·.fnValue) = some (.plaus true) := by decide

/-- The outputs of spec 70 R161, and a hidden partial frame (PRG2). -/
theorem test_outputs :
    outputs Params.P0 CoreState.reset = ⟨false, true, false, 1500000, false, 0, 0, 0, 0, 0, 0, false, 0, 0, 0, 0, 0, 0, 0, 0⟩ ∧
    (outputs Params.P0 (coreOf .timedOut 21 0x140000 .timeout .noPulse)).frame = 0 ∧
    (outputs Params.P0 completeA).frame = frameA := by decide

/-! ## Witnesses: a concrete state and operands that meet all hypotheses of each statement that has some -/

/-- A port sample with nothing offered. -/
def quiet : Ports :=
  { rst := false, cmdValid := false, cmdOp := 0, cmdSize := 0, cmdFrame := 0, psValid := false, psNoPulse := false, psDuration := 0 }

def waiting : CoreState := coreOf .waitMarker 0 0
def capturing (idx : BitVec 6) : CoreState := coreOf .capture idx 0

theorem witness_ResetEventRestoresEveryElement :
    (stateOf (capturing 3) [.event .reset]).inputs = .event .reset :: [] := rfl

theorem witness_ResetEdgeWinsOverOtherInputs :
    (stateOf completeA [.edge { quiet with rst := true, cmdValid := true, psValid := true }]).inputs =
      .edge { quiet with rst := true, cmdValid := true, psValid := true } :: [] ∧
    ({ quiet with rst := true, cmdValid := true, psValid := true } : Ports).rst = true := ⟨rfl, rfl⟩

theorem witness_ResetAbandonsAnAcquisition :
    (stateOf waiting [.event .reset, response W true 0]).core.busy = true ∧
    (stateOf waiting [.event .reset, response W true 0]).inputs = .event .reset :: response W true 0 :: [] := ⟨rfl, rfl⟩

theorem witness_StepRunsTheDecodedInstruction :
    (stateOf waiting [response W true 7]).inputs = response W true 7 :: [] ∧
    fetch W (stateOf waiting).core (response W true 7) = .packet { sel := .sync, bytes := rspBytes W true 7 } ∧
    decode Widths.default { sel := .sync, bytes := rspBytes W true 7 } = .ok (.sync true 7) := ⟨rfl, rfl, rfl⟩

/-- Every clause: each opcode in `COMPLETE`, a response in each busy state, and an edge with nothing in each kind of state. -/
theorem witness_EdgeRunsAtMostOneEvent :
    (∀ op : BitVec 2, (stateOf completeA [.edge { quiet with cmdValid := true, cmdOp := op }]).inputs =
        .edge { quiet with cmdValid := true, cmdOp := op } :: [] ∧
      ({ quiet with cmdValid := true, cmdOp := op } : Ports).rst = false ∧ completeA.busy = false) ∧
    (stateOf waiting [.edge { quiet with psValid := true }]).core.st = .waitMarker ∧
    (stateOf (capturing 58) [.edge { quiet with psValid := true }]).core.st = .capture ∧
    (quiet.cmdSize < 2 ^ Params.P0.sizeW ∧ quiet.psDuration < 2 ^ Params.P0.durW) ∧
    (stateOf completeA [.edge quiet]).core.busy = false ∧ (stateOf waiting [.edge quiet]).core.busy = true ∧
    quiet.rst = false ∧ quiet.cmdValid = false ∧ quiet.psValid = false :=
  ⟨fun _ => ⟨rfl, rfl, rfl⟩, rfl, rfl, by decide, rfl, rfl, rfl, rfl, rfl⟩

theorem witness_NoInputMeansNoChange : (stateOf completeA).inputs = [] := rfl

theorem witness_StepConsumesOneInputAndKeepsParameters :
    step (stateOf completeA [response W true 0]) = .next (stateOf completeA) := rfl

/-- A word of each format, at the default widths and at others; and a command in a state that takes it as it is. -/
theorem witness_FetchWordRunsTheTableWord :
    decodeTableWord 72 0x180000000000000000 = some (.rsvd 0 0) ∧ decodeTableWord 40 0x0 = some (.sync false 0) ∧
    decodeTableWord 64 0x7ffffffffffffff = some (.extractTf frameO) ∧ decodeTableWord 24 0x7ffff = some (.plaus 63 31 255) ∧
    decodeTableWordAt { durW := 8, sizeW := 6 } 16 0x1a0 = some (.sync true 0xa0) ∧
    select completeA (portOf (selectorOf (.rsvd 0 0))) = some (selectorOf (.rsvd 0 0)) := by
  decide

theorem witness_DecodeOfEncodeIsTheInstruction :
    (Instr.acquire 255 frameO).wf Widths.default = true ∧ (Instr.acquire 65535 0).wf { durW := 1, sizeW := 16 } = true ∧
    (Instr.capture true (2 ^ 32 - 1)).wf Widths.default = true := by decide

theorem witness_EncodeOfDecodeIsThePacket :
    decode Widths.default { sel := .cmd, bytes := leBytes 9 (2 ^ 69 - 1) } = .ok (.rsvd 255 frameO) := rfl

/-- An edge and a line of each kind with the least value that is too wide. -/
theorem witness_ValuesTooWideForTheirPortAreRefused :
    (stateOf completeA [.edge { quiet with cmdValid := true, cmdSize := 256 }]).inputs =
      .edge { quiet with cmdValid := true, cmdSize := 256 } :: [] ∧ completeA.busy = false ∧ 2 ^ Params.P0.sizeW ≤ 256 ∧
    (stateOf waiting [.edge { quiet with psValid := true, psDuration := 2 ^ 32 }]).inputs =
      .edge { quiet with psValid := true, psDuration := 2 ^ 32 } :: [] ∧ waiting.busy = true ∧ 2 ^ Params.P0.durW ≤ 2 ^ 32 ∧
    quiet.rst = false ∧
    (stateOf completeA [.event ((Line.acquire 256).event W)]).inputs = .event ((Line.acquire 256).event W) :: [] ∧
    (stateOf completeA [.event ((Line.decode 256 0).event W)]).inputs = .event ((Line.decode 256 0).event W) :: [] ∧
    (stateOf waiting [.event ((Line.p (2 ^ 32)).event W)]).inputs = .event ((Line.p (2 ^ 32)).event W) :: [] :=
  ⟨rfl, rfl, by decide, rfl, rfl, by decide, rfl, rfl, rfl, rfl⟩

/-- Both cases of the largest duration. -/
theorem witness_ClassifyAtTheBoundaries :
    Params.P0.bit1Max < 2 ^ Params.P0.durW - 1 ∧ (∃ p : Params, p.bit1Max = 2 ^ p.durW - 1) := by
  refine ⟨by decide, ?_⟩
  exact ⟨{ raw := { times := { Times.P0 with bit1Max := 2 ^ 32 - 1 } }, ok := by decide }, by decide⟩

/-- P0 has a duration in each of the classifier's regions. -/
theorem witness_ClassifyFollowsTheIntervals :
    50000 ≤ Params.P0.lowMin ∧ (Params.P0.lowMin < 50001 ∧ 50001 ≤ Params.P0.bit0Max) ∧
    (Params.P0.bit0Max < 250000 ∧ 250000 ≤ Params.P0.bit1Max) ∧ Params.P0.bit1Max < 250001 := by decide

/-- Each clause, at the sizes next to 59. -/
theorem witness_AcquireStartsOrRejects :
    255 < 2 ^ Params.P0.sizeW ∧ waiting.busy = true ∧ completeA.busy = false ∧ (58 : Nat) ≠ 59 ∧ (60 : Nat) ≠ 59 := by decide
theorem witness_AcquireWrongSizeLeavesTheFrame : completeA.busy = false ∧ (60 : Nat) ≠ 59 := by decide
theorem witness_AcquireHidesTheEarlierFrame : completeA.busy = false := rfl
theorem witness_SyncLooksOnlyAtNoPulse : (stateOf waiting).core.st = .waitMarker := rfl

theorem witness_WaitHasNoBound : (stateOf waiting (pulses W [0, 300000] ++ [response W true 0])).core.st = .waitMarker ∧
    (stateOf waiting (pulses W [0, 300000] ++ [response W true 0])).inputs = pulses W [0, 300000] ++ [response W true 0] ∧
    ∀ d ∈ [0, 300000], d < 2 ^ Params.P0.durW := ⟨rfl, rfl, by decide⟩

theorem witness_ResponsesOutsideAnAcquisitionAreLost :
    (stateOf completeA [response W false 100000]).core.busy = false ∧
    (stateOf completeA [response W false 100000]).inputs = response W false 100000 :: [] ∧
    (stateOf completeA [.edge { quiet with psValid := true }]).inputs = .edge { quiet with psValid := true } :: [] ∧
    ({ quiet with psValid := true } : Ports).rst = false ∧ ({ quiet with psValid := true } : Ports).cmdValid = false :=
  ⟨rfl, rfl, rfl, rfl, rfl⟩

/-- At the first and the last index of the range, with each bit at a bound of its interval. -/
theorem witness_CaptureStoresABit :
    (stateOf (capturing 0)).core.st = .capture ∧ (stateOf (capturing 0)).core.idx.toNat ≤ 57 ∧
    (stateOf (capturing 57)).core.idx.toNat ≤ 57 ∧ IsBit Params.P0 false 50001 false ∧ IsBit Params.P0 false 250000 true := by
  decide

theorem witness_CaptureCompletesTheFrame :
    (stateOf (capturing 58)).core.st = .capture ∧ (stateOf (capturing 58)).core.idx = 58 ∧
    IsBit Params.P0 false 150000 false ∧ IsBit Params.P0 false 150001 true := by decide

theorem witness_CaptureFailureTimesOut :
    (stateOf (capturing 58)).core.st = .capture ∧ IsFailure Params.P0 true 100000 .noPulse ∧
    IsFailure Params.P0 false 50000 .outOfRange ∧ IsFailure Params.P0 false 250001 .outOfRange := by decide

/-- The stop is met at `idx = 59`, a state no run reaches. -/
theorem witness_FaultOnlyBeyondTheFrame :
    exec (.capture false 100000) (stateOf (capturing 59)) = .fault .frameCellOutOfRange := rfl

/-- One duration repeated is one bit repeated. -/
theorem areBits_replicate (n : Nat) : AreBits Params.P0 (List.replicate n 200000) (List.replicate n true) := by
  refine ⟨by simp, fun k h1 h2 => ?_⟩
  rw [List.getElem_replicate, List.getElem_replicate]
  decide

/-- 58 bits and then the sentinel. -/
def failingInputs : List Input := pulses W (List.replicate 58 200000) ++ response W true 0 :: [response W false 7]

theorem witness_FailureAtTheKthCaptureIsATimeout :
    (stateOf (capturing 0) failingInputs).core.st = .capture ∧ (stateOf (capturing 0) failingInputs).core.idx = 0 ∧
    (List.replicate 58 true).length < 59 ∧ AreBits Params.P0 (List.replicate 58 200000) (List.replicate 58 true) ∧
    IsFailure Params.P0 true 0 .noPulse ∧ 0 < 2 ^ Params.P0.durW ∧
    (stateOf (capturing 0) failingInputs).inputs =
      pulses W (List.replicate 58 200000) ++ response W true 0 :: [response W false 7] :=
  ⟨rfl, rfl, by decide, areBits_replicate 58, by decide, by decide, rfl⟩

/-- A command, two pulses of lengths no bit has, the marker and 59 bits. -/
def acquiringInputs : List Input := .event (.present .cmd (cmdBytes W OP_ACQUIRE 59 0)) ::
  (pulses W [0, 4000000000] ++ response W true 123456 :: (pulses W (List.replicate 59 200000) ++ [response W false 7]))

theorem witness_AcquisitionDeliversTheFrame :
    (stateOf completeA acquiringInputs).core.busy = false ∧ (List.replicate 59 true).length = 59 ∧
    AreBits Params.P0 (List.replicate 59 200000) (List.replicate 59 true) ∧
    (∀ d ∈ [0, 4000000000], d < 2 ^ Params.P0.durW) ∧ 123456 < 2 ^ Params.P0.durW ∧
    (stateOf completeA acquiringInputs).inputs = .event (.present .cmd (cmdBytes W OP_ACQUIRE 59 0)) ::
      (pulses W [0, 4000000000] ++
        response W true 123456 :: (pulses W (List.replicate 59 200000) ++ [response W false 7])) :=
  ⟨rfl, by decide, areBits_replicate 59, by decide, by decide, rfl⟩

/-- Frames that agree on the minute and differ beside it; and a position in a field. -/
theorem witness_ExtractReadsOnlyItsField :
    (∀ k, (fieldRange .minute).1 ≤ k → k < (fieldRange .minute).1 + (fieldRange .minute).2 → AgreeAt 0x110100000 0 k) ∧
    ((fieldRange .year).1 ≤ 57 ∧ 57 < (fieldRange .year).1 + (fieldRange .year).2) := by
  refine ⟨fun k h1 h2 => ?_, by decide⟩
  simp only [fieldRange] at h1 h2
  have all : ∀ j : Fin 7, (0x110100000 : Frame).getLsbD (21 + j.val) = (0 : Frame).getLsbD (21 + j.val) := by decide
  have := all ⟨k - 21, by omega⟩
  simp only [Nat.add_sub_cancel' h1] at this
  exact this

/-- Frame A passes each check; flipping one data bit, or the parity bit, is an odd number of flips. -/
theorem witness_OddFlipsFlipTheVerdict :
    (parityCheck frameA .minute = true ∧ flips frameA 0x49a290256140000 21 8 % 2 = 1) ∧
    (parityCheck frameA .hour = true ∧ flips frameA 0x49a2902d6540000 29 7 % 2 = 1) ∧
    (parityCheck frameA .date = true ∧ flips frameA 0x09a290256540000 36 23 % 2 = 1) := by decide

theorem witness_ParityChecksCountOnes : completeA.busy = false ∧ ¬ ParityHolds frameO := by decide

/-- A busy state, a state that is not, and for each of the four clauses of `DecodeRecords` a frame. -/
theorem witness_DecodeRecordsByTheOrderOfChecks :
    255 < 2 ^ Params.P0.sizeW ∧ waiting.busy = true ∧ completeA.busy = false ∧ (58 : Nat) ≠ 59 ∧ ¬ ParityHolds frameO ∧ (ParityHolds 0 ∧ ¬ DateHolds 0) ∧
    (ParityHolds frameA ∧ DateHolds frameA) := by decide

theorem witness_DecodeIsAPureFunctionOfItsOperands : completeA.busy = false ∧ CoreState.reset.busy = false := ⟨rfl, rfl⟩

theorem witness_AllZeroFrameIsADateError :
    CoreState.reset.busy = false ∧ (outputs Params.P0 CoreState.reset).frameValid = false ∧
    (ParityHolds 0x20000 ∧ ¬ DateHolds 0x20000) := ⟨rfl, rfl, by decide⟩

/-- V-D8's frame agrees with frame A from position 21 on. -/
theorem agree_from_21 (k : Nat) (h1 : 21 ≤ k) (h2 : k ≤ 58) : AgreeAt frameA 0x49a2902564e0008 k := by
  have all : ∀ j : Fin 38, frameA.getLsbD (21 + j.val) = (0x49a2902564e0008 : Frame).getLsbD (21 + j.val) := by decide
  have := all ⟨k - 21, by omega⟩
  simp only [Nat.add_sub_cancel' h1] at this
  exact this

theorem witness_UnprotectedPositionsChangeOnlyTheFlags :
    completeA.busy = false ∧ ∀ k, 21 ≤ k → k ≤ 58 → AgreeAt frameA 0x49a2902564e0008 k := ⟨rfl, agree_from_21⟩

theorem witness_IgnoredBitsChangeNothing :
    (58 : Nat) ≠ 59 ∧ ∀ k, k = 15 ∨ k = 16 ∨ (21 ≤ k ∧ k ≤ 58) → AgreeAt frameA 0x49a2902564e0008 k := by
  refine ⟨by decide, fun k h => ?_⟩
  rcases h with rfl | rfl | ⟨h1, h2⟩
  · decide
  · decide
  · exact agree_from_21 k h1 h2

theorem witness_NopAndRsvdChangeNothing : completeA.busy = false ∧ waiting.busy = true ∧ 255 < 2 ^ Params.P0.sizeW := by decide

theorem witness_CommandsAreNotTakenWhileBusy :
    (stateOf waiting [.event (.present .cmd [])]).core.busy = true ∧
    (stateOf waiting [.event (.present .cmd [])]).inputs = .event (.present .cmd []) :: [] ∧
    (stateOf waiting [.edge { quiet with cmdValid := true }]).inputs = .edge { quiet with cmdValid := true } :: [] ∧
    ({ quiet with cmdValid := true } : Ports).rst = false ∧ ({ quiet with cmdValid := true } : Ports).psValid = false :=
  ⟨rfl, rfl, rfl, rfl, rfl⟩

theorem witness_CommandsCompleteInTheirOwnEvent : completeA.busy = false ∧ (0 : Nat) ≠ 59 := by decide

/-- Each of the four operations answers a next state somewhere that it changes. -/
theorem witness_DecodeAndAcquisitionAreIndependent :
    (nextOf (exec (.decode 59 frameA) (stateOf completeA))).isSome = true ∧
    (nextOf (exec (.acquire 59 0) (stateOf completeA))).isSome = true ∧
    (nextOf (exec (.sync true 0) (stateOf waiting))).isSome = true ∧
    (nextOf (exec (.capture false 200000) (stateOf (capturing 58)))).isSome = true := by decide

/-- A set that meets every constraint, and one that breaks one. -/
theorem witness_ParametersOutOfOrderAreRefused :
    (1 ≤ 2 ∧ 6 ≤ 6 ∧ 0 < 1 ∧ 1 < 2 ∧ 2 < 2 ^ 2 ∧ 0 < 3 ∧ 3 < 2 ^ 2) ∧ ¬ (1 ≤ 32 ∧ 6 ≤ 5) := by decide

theorem witness_PureFunctionsReadAndWriteNoState : (stateOf waiting).params = (stateOf completeA).params := rfl

/-- The invariants hold in a state of each `st`, and a step from it answers a next state. -/
theorem witness_StepKeepsTheInvariants :
    Inv CoreState.reset ∧ Inv waiting ∧ Inv (capturing 58) ∧ Inv completeA ∧ Inv (coreOf .timedOut 58 7 .timeout .noPulse) ∧
    (nextOf (step (stateOf (capturing 58) [response W false 200000]))).map (·.core) = some (coreOf .complete 59 0x400000000000000 .success) := by
  refine ⟨?_, ?_, ?_, ?_, ?_, by decide⟩ <;> constructor <;> decide

theorem witness_InvariantStatesStepSafely : Inv (capturing 58) := witness_StepKeepsTheInvariants.2.2.1

/-- Each transition is taken by some step. -/
theorem witness_AcquisitionStateMovesOnlyAsListed :
    (nextOf (step (stateOf completeA [.event (.present .cmd (cmdBytes W OP_ACQUIRE 59 0))]))).map (·.core.st) = some .waitMarker ∧
    (nextOf (step (stateOf waiting [response W true 0]))).map (·.core.st) = some .capture ∧
    (nextOf (step (stateOf (capturing 58) [response W false 100000]))).map (·.core.st) = some .complete ∧
    (nextOf (step (stateOf (capturing 58) [response W true 0]))).map (·.core.st) = some .timedOut ∧
    (nextOf (step (stateOf (capturing 58) [.event .reset]))).map (·.core.st) = some .idle := by decide

theorem witness_IdxChangesOnlyByAcquireCaptureReset :
    (nextOf (step (stateOf (capturing 58) [response W false 100000]))).map (·.core.idx) = some 59 ∧
    (nextOf (step (stateOf completeA [.event (.present .cmd (cmdBytes W OP_ACQUIRE 59 0))]))).map (·.core.idx) = some 0 := by decide

theorem witness_BufferChangesOnlyAtIdxInCapture :
    (nextOf (step (stateOf (capturing 57) [response W false 200000]))).map (·.core.fb) = some 0x200000000000000 := by decide

theorem witness_ProgramCounterMovesOnlyByAcquireSyncCapture :
    (coreAfter (.sync true 0) waiting).map (·.pc) = some (.capture, 0) ∧ waiting.pc = (.waitMarker, 0) := by decide

theorem witness_DecodeResultsChangeOnlyByDecode :
    (nextOf (step (stateOf completeA [.event (.present .cmd (cmdBytes W OP_DECODE 59 frameA))]))).map (·.core.decResult) =
      some .success ∧ completeA.decResult = .none := by decide

theorem witness_OnlyAResponseOrResetEndsAnAcquisition :
    (nextOf (step (stateOf (capturing 0) [response W true 0]))).map (·.core.busy) = some false ∧
    (stateOf (capturing 0)).core.busy = true := by decide

/-- A line of each kind is met where it is enabled and where it is not, with the largest number that fits its port. -/
theorem witness_LinesRunTheirOperations :
    (stateOf waiting [.event (Line.nop.event W)]).inputs = .event (Line.nop.event W) :: [] ∧
    Line.nop.enabled waiting = false ∧ Line.nop.enabled completeA = true ∧ completeA.busy = false ∧
    Line.np.enabled completeA = false ∧ waiting.st = .waitMarker ∧ (capturing 0).st = .capture ∧
    255 < 2 ^ Params.P0.sizeW ∧ 2 ^ 32 - 1 < 2 ^ Params.P0.durW :=
  ⟨rfl, rfl, rfl, rfl, rfl, rfl, rfl, by decide, by decide⟩

end Sys2Proof.Tests
end

section
/-! PROOFS. The family of spec 40: what `CLASSIFY` answers, and that the pure functions read nothing of a state but its
parameters. -/

namespace Sys2Proof.Proofs

open Sys2Proof.Machine Sys2Proof.Claims

/-! ## CLASSIFY -/

/-- Settles O14: the reported code is the classifier's, region by region. -/
theorem classifyFollowsTheIntervals : Obligations.ClassifyFollowsTheIntervals := by
  intro s noPulse dur
  refine ⟨classify s.params noPulse dur, rfl, ?sentinel, ?tooShort, ?bit0, ?bit1, ?tooLong⟩
  case sentinel => rintro rfl; rw [classify_noPulse]; rfl
  case tooShort => rintro rfl h; rw [classify_tooShort h]; rfl
  case bit0 => rintro rfl hl hu; rw [classify_bit0 hl hu]; rfl
  case bit1 => rintro rfl hl hu; rw [classify_bit1 hl hu]; rfl
  case tooLong => rintro rfl h; rw [classify_tooLong h]; rfl

/-! ## The pure functions -/

theorem isPure_of_mem_pureFunctions {noPulse : Bool} {dur : Nat} {f : Frame} {day : BitVec 6} {month : BitVec 5}
    {year : BitVec 8} {i : Instr} (h : i ∈ pureFunctions noPulse dur f day month year) : isPure i = true :=
  List.all_eq_true.mp (show (pureFunctions noPulse dur f day month year).all isPure = true from rfl) i h

/-- `CLASSIFY` is the one pure function that looks at the state at all, and it looks at the parameters alone. -/
theorem exec_pure_congr {i : Instr} (h : isPure i = true) {s u : State} (hp : s.params = u.params) :
    ∃ v, exec i s = .next (s.reportValue v) ∧ exec i u = .next (u.reportValue v) := by
  cases i
  case classify noPulse dur =>
    refine ⟨.classify (classify s.params noPulse dur), rfl, ?_⟩
    rw [hp]
    rfl
  case acquire | sync | capture | decode | nop | rsvd => cases h
  all_goals exact ⟨_, rfl, rfl⟩

/-- Settles O45: each of the thirteen is pure, and pure functions agree in states with equal parameters. -/
theorem pureFunctionsReadAndWriteNoState : Obligations.PureFunctionsReadAndWriteNoState := by
  intro s u noPulse dur f day month year hp i hi
  exact exec_pure_congr (isPure_of_mem_pureFunctions hi) hp

end Sys2Proof.Proofs
end

section
/-! PROOFS. The family of spec 41: the command word of `ACQUIRE`, when a command is enabled, and what `ACQUIRE` and `SYNC`
write. -/

namespace Sys2Proof.Proofs

open Sys2Proof.Machine Sys2Proof.Claims

/-! ## Command words -/

/-- The word written out from spec 30 R53 is the one the command port delivers. -/
theorem commandWord_eq_cmdBytes {w : Widths} {size : Nat} (op : BitVec 2) (frame : Frame) (h : size < 2 ^ w.sizeW) :
    commandWord w op.toNat size frame = { sel := .cmd, bytes := cmdBytes w op size frame } := by
  have hlen : (w.sizeW + 61 + 7) / 8 = Format.cw.bytes w := by
    rw [Format.bytes, Format.width]
    omega
  have hval : op.toNat * 2 ^ (w.sizeW + 59) + size * 2 ^ 59 + frame.toNat = packCW w op size frame := by
    rw [packCW, Nat.pow_add]
    ring
  rw [commandWord, cmdBytes, if_pos (fits_size.mpr h), hlen, hval]

theorem select_cmd_iff {c : CoreState} : select c .cmd = some .cmd ↔ c.busy = false := by
  cases hb : c.busy
  case false => simp [select_cmd_idle hb]
  case true => simp [select_cmd_busy hb]

/-! ## ACQUIRE -/

/-- Settles O16, clause by clause: the word, the enabling, and the three cases of the operation. -/
theorem acquireStartsOrRejects : Obligations.AcquireStartsOrRejects := by
  intro s size frame
  refine ⟨?encoding, ?enabled, ?busy, ?starts, ?rejects⟩
  case encoding =>
    intro h
    exact (congrArg _ (commandWord_eq_cmdBytes OP_ACQUIRE frame h)).trans (decode_acquireBytes frame h)
  case enabled => exact select_cmd_iff.trans (CoreState.not_busy_iff s.core)
  case busy => exact fun hb => execAcquire_busy hb size frame
  case starts =>
    rintro hb rfl
    exact execAcquire_start hb frame
  case rejects => exact fun hb hs => execAcquire_reject hb hs frame

/-! ## SYNC -/

/-- Settles O19: the marker is the sentinel alone, and a response met in `WAIT_MARKER` is a `SYNC` step. -/
theorem syncLooksOnlyAtNoPulse : Obligations.SyncLooksOnlyAtNoPulse := by
  intro s dur hst
  exact ⟨execSync_marker hst dur, execSync_pulse dur s, select_rsp_wait hst⟩

end Sys2Proof.Proofs
end

section
/-! PROOFS. The family of spec 42: a `CAPTURE` step that stores a bit before the last. -/

namespace Sys2Proof.Proofs

open Sys2Proof.Machine Sys2Proof.Claims

/-! ## CAPTURE of a bit -/

/-- The intervals of `IsBit` are the classifier's two bit regions (spec 40 R70). -/
theorem classify_of_isBit {p : Params} {noPulse : Bool} {dur : Nat} {b : Bool} (h : IsBit p noPulse dur b) :
    classify p noPulse dur = if b then .bit1 else .bit0 := by
  obtain ⟨rfl, ⟨rfl, hl, hu⟩ | ⟨rfl, hl, hu⟩⟩ := h
  · exact classify_bit0 hl hu
  · exact classify_bit1 hl hu

theorem execCapture_of_isBit {s : State} {noPulse : Bool} {dur : Nat} {b : Bool} (hst : s.core.st = .capture)
    (h : IsBit s.params noPulse dur b) : execCapture noPulse dur s = storeBit b s := by
  rw [execCapture_eq hst, classify_of_isBit h]
  cases b <;> rfl

/-- Before the last index a stored bit advances and never completes. -/
theorem storeBit_advance {s : State} (v : Bool) (h : s.core.idx.toNat ≤ 57) :
    ∃ fb, memWrite s.core.fb s.core.idx.toNat v = some fb ∧ storeBit v s = .next (s.withCore (s.core.advance fb)) := by
  obtain ⟨fb, hfb, he⟩ := storeBit_inside v (Nat.lt_of_le_of_lt h (by decide))
  have hne : s.core.idx ≠ 58 := fun h58 => by simp [h58] at h
  exact ⟨fb, hfb, by rw [he, if_neg hne]⟩

/-- Six bits hold the next index inside the frame: the counter does not wrap. -/
theorem advance_idx_toNat (fb : Frame) {c : CoreState} (h : c.idx.toNat ≤ 57) :
    (c.advance fb).idx.toNat = c.idx.toNat + 1 := by
  rw [CoreState.advance_idx]
  bv_omega

/-- Settles O22: the step is `storeBit` of the bit, which advances; `memWrite_spec` gives the one cell and the others, and the
block stays busy, so the next request opens. -/
theorem captureStoresABit : Obligations.CaptureStoresABit := by
  intro s noPulse dur b hst hidx hbit
  obtain ⟨fb, hfb, hstore⟩ := storeBit_advance b hidx
  obtain ⟨-, hcell, hothers⟩ := memWrite_spec hfb
  have hexec : exec (.capture noPulse dur) s = .next (s.withCore (s.core.advance fb)) :=
    (execCapture_of_isBit hst hbit).trans hstore
  have hbusy : (s.core.advance fb).busy = true := (s.core.advance fb).busy_iff.mpr (.inr hst)
  refine ⟨_, hexec, hcell, hothers, advance_idx_toNat fb hidx, hst, rfl, rfl, rfl, rfl, rfl, rfl, rfl, hbusy, ?opens⟩
  case opens => simp only [requestOpens, State.withCore_core, hbusy, Bool.or_true, Bool.and_true]

end Sys2Proof.Proofs
end

section
/-! PROOFS. The family of spec 43: what `EXTRACT.MINUTE` and `EXTRACT.HOUR` report, and how large it can be. -/

namespace Sys2Proof.Proofs

open Sys2Proof.Machine Sys2Proof.Claims

/-! ## The sums of the statements are the extractor's (spec 43 R104, R105) -/

theorem extract_minute_eq_minuteSum (f : Frame) : extract f .minute = minuteSum f := extract_minute f

theorem extract_hour_eq_hourSum (f : Frame) : extract f .hour = hourSum f := extract_hour f

theorem minuteSum_le (f : Frame) : minuteSum f ≤ 85 := extract_minute_eq_minuteSum f ▸ extract_le f .minute

theorem hourSum_le (f : Frame) : hourSum f ≤ 45 := extract_hour_eq_hourSum f ▸ extract_le f .hour

/-! ## What the two operations report -/

theorem exec_extractMinute (f : Frame) (s : State) :
    exec (.extractMinute f) s = .next (s.reportValue (.extractMinute (BitVec.ofNat 7 (minuteSum f)))) := by
  rw [← extract_minute_eq_minuteSum]
  rfl

theorem exec_extractHour (f : Frame) (s : State) :
    exec (.extractHour f) s = .next (s.reportValue (.extractHour (BitVec.ofNat 6 (hourSum f)))) := by
  rw [← extract_hour_eq_hourSum]
  rfl

/-- Settles O29: each operation reports its field's sum and writes nothing else; `extract_le` bounds the two sums. -/
theorem extractClockFields : Obligations.ExtractClockFields := by
  intro s f
  exact ⟨exec_extractMinute f s, minuteSum_le f, exec_extractHour f s, hourSum_le f⟩

end Sys2Proof.Proofs
end

section
/-! PROOFS. The family of spec 44: the parity checks count ones, and a failing one makes `DECODE` report `PARITY_ERROR`. -/

namespace Sys2Proof.Proofs

open Sys2Proof.Machine Sys2Proof.Claims

/-! ## Counting ones modulo 2 -/

theorem ones_succ (f : Frame) (lo n : Nat) : ones f lo (n + 1) = ones f lo n + bit f (lo + n) := by
  simp [ones, List.range_succ]

theorem bit_le_one (f : Frame) (k : Nat) : bit f k ≤ 1 := Bool.toNat_le _

/-- The count of ones is odd exactly when their exclusive-or is 1 (spec 44, "Equivalent statement"). -/
theorem ones_mod_two (f : Frame) (lo n : Nat) : ones f lo n % 2 = (xorRange f lo n).toNat := by
  induction n with
  | zero => rfl
  | succ k ih =>
    rw [ones_succ, Nat.add_mod, ih, xorRange, bit]
    cases xorRange f lo k <;> cases f.getLsbD (lo + k) <;> rfl

/-- Data bits whose parity is the bit after them make an even count together with it, and conversely. -/
theorem ones_mod_two_eq_bit_iff (f : Frame) (lo n : Nat) :
    ones f lo n % 2 = bit f (lo + n) ↔ ones f lo (n + 1) % 2 = 0 := by
  have := bit_le_one f (lo + n)
  rw [ones_succ]
  omega

/-! ## The checks -/

theorem parityCheck_iff (f : Frame) (r : ParityRange) :
    parityCheck f r = true ↔ ones f (parityData r).1 ((parityData r).2 + 1) % 2 = 0 := by
  rw [parityCheck_eq, ones_mod_two, Bool.not_eq_true', Bool.toNat_eq_zero]

theorem parityCheck_eq_decide (f : Frame) (r : ParityRange) :
    parityCheck f r = decide (ones f (parityData r).1 (parityData r).2 % 2 = bit f ((parityData r).1 + (parityData r).2)) := by
  rw [Bool.eq_iff_iff, parityCheck_iff, decide_eq_true_iff, ones_mod_two_eq_bit_iff]

theorem parityMinuteOk_eq (f : Frame) : parityMinuteOk f = decide (ones f 21 7 % 2 = bit f 28) :=
  parityCheck_eq_decide f .minute

theorem parityHourOk_eq (f : Frame) : parityHourOk f = decide (ones f 29 6 % 2 = bit f 35) :=
  parityCheck_eq_decide f .hour

theorem parityDateOk_eq (f : Frame) : parityDateOk f = decide (ones f 36 22 % 2 = bit f 58) :=
  parityCheck_eq_decide f .date

theorem parityOk_iff (f : Frame) : parityOk f = true ↔ ParityHolds f := by
  rw [parityOk, Bool.and_eq_true, Bool.and_eq_true, and_assoc]
  exact and_congr (parityCheck_iff f .minute) (and_congr (parityCheck_iff f .hour) (parityCheck_iff f .date))

/-! ## What the operations do -/

theorem exec_parityMinute (f : Frame) (s : State) :
    exec (.parityMinute f) s = .next (s.reportValue (.parityMinute (decide (ones f 21 7 % 2 = bit f 28)))) := by
  rw [← parityMinuteOk_eq]
  rfl

theorem exec_parityHour (f : Frame) (s : State) :
    exec (.parityHour f) s = .next (s.reportValue (.parityHour (decide (ones f 29 6 % 2 = bit f 35)))) := by
  rw [← parityHourOk_eq]
  rfl

theorem exec_parityDate (f : Frame) (s : State) :
    exec (.parityDate f) s = .next (s.reportValue (.parityDate (decide (ones f 36 22 % 2 = bit f 58)))) := by
  rw [← parityDateOk_eq]
  rfl

theorem exec_decode_of_not_parityHolds {s : State} {f : Frame} (hb : s.core.busy = false) (hp : ¬ ParityHolds f) :
    exec (.decode 59 f) s = .next (s.withCore (raise .parityError s.core)) :=
  execDecode_parity hb (Bool.eq_false_iff.mpr (mt (parityOk_iff f).mp hp))

/-- Settles O32: each operation reports its range's count against its parity bit, the two forms of a check are
`ones_mod_two_eq_bit_iff`, and a failing check is an accepted `DECODE`'s parity case. -/
theorem parityChecksCountOnes : Obligations.ParityChecksCountOnes := by
  intro s f
  exact ⟨exec_parityMinute f s, ones_mod_two_eq_bit_iff f 21 7, exec_parityHour f s, ones_mod_two_eq_bit_iff f 29 6,
    exec_parityDate f s, ones_mod_two_eq_bit_iff f 36 22, exec_decode_of_not_parityHolds⟩

end Sys2Proof.Proofs
end

section
/-! PROOFS. The family of spec 46: what an accepted `DECODE` records is fixed by its operands, by the order of the checks. -/

namespace Sys2Proof.Proofs

open Sys2Proof.Machine Sys2Proof.Claims

/-! ## The sums of the statements are the extractor's (spec 43 R102 to R109) -/

theorem extract_day_eq_daySum (f : Frame) : extract f .day = daySum f := extract_day f

theorem extract_month_eq_monthSum (f : Frame) : extract f .month = monthSum f := extract_month f

theorem extract_year_eq_yearSum (f : Frame) : extract f .year = yearSum f := extract_year f

theorem extractAll_eq_timeValue (f : Frame) : extractAll f = timeValue f := by
  rw [extractAll, valueTf, valueA1, valueMinute, valueHour, valueDay, valueWeekday, valueMonth, valueYear,
    extract_transmitterFault, extract_a1, extract_minute_eq_minuteSum, extract_hour_eq_hourSum, extract_day_eq_daySum,
    extract_weekday, extract_month_eq_monthSum, extract_year_eq_yearSum]
  rfl

/-! ## The plausibility check (spec 45 R125) -/

theorem plausOk_iff (day : BitVec 6) (month : BitVec 5) (year : BitVec 8) :
    plausOk day month year = true ↔ day ≠ 0 ∧ month ≠ 0 ∧ year ≠ 0 := by
  simp only [plausOk, Bool.and_eq_true, bne_iff_ne, and_assoc]

theorem valueDay_eq_zero_iff (f : Frame) : valueDay f = 0 ↔ daySum f = 0 := by
  rw [← BitVec.toNat_inj, valueDay_toNat, extract_day_eq_daySum]
  rfl

theorem valueMonth_eq_zero_iff (f : Frame) : valueMonth f = 0 ↔ monthSum f = 0 := by
  rw [← BitVec.toNat_inj, valueMonth_toNat, extract_month_eq_monthSum]
  rfl

theorem valueYear_eq_zero_iff (f : Frame) : valueYear f = 0 ↔ yearSum f = 0 := by
  rw [← BitVec.toNat_inj, valueYear_toNat, extract_year_eq_yearSum]
  rfl

/-- The fields lose nothing in their widths, so the check on them is the check on the sums. -/
theorem plausOk_iff_dateHolds (f : Frame) : plausOk (valueDay f) (valueMonth f) (valueYear f) = true ↔ DateHolds f := by
  rw [plausOk_iff, Ne, Ne, Ne, valueDay_eq_zero_iff, valueMonth_eq_zero_iff, valueYear_eq_zero_iff]

/-! ## DECODE -/

theorem exec_decode_of_not_dateHolds {s : State} {f : Frame} (hb : s.core.busy = false) (hp : ParityHolds f)
    (hd : ¬ DateHolds f) : exec (.decode 59 f) s = .next (s.withCore (raise .dateError s.core)) :=
  execDecode_date hb ((parityOk_iff f).mpr hp) (Bool.eq_false_iff.mpr (mt (plausOk_iff_dateHolds f).mp hd))

theorem exec_decode_of_holds {s : State} {f : Frame} (hb : s.core.busy = false) (hp : ParityHolds f) (hd : DateHolds f) :
    exec (.decode 59 f) s = .next (s.withCore (s.core.publish (timeValue f))) := by
  rw [← extractAll_eq_timeValue]
  exact execDecode_success hb ((parityOk_iff f).mpr hp) ((plausOk_iff_dateHolds f).mpr hd)

/-- One result and one TimeValue, chosen before the state is known, are what every block that is not busy records. -/
theorem exec_decode_records (size : Nat) (f : Frame) :
    ∃ r tv, DecodeRecords size f r tv ∧ ∀ s : State, s.core.busy = false →
      exec (.decode size f) s = .next (s.withCore { s.core with decResult := r, tv := tv }) := by
  by_cases hs : size = 59
  case neg => exact ⟨.invalidSize, .zero, by simp [DecodeRecords, hs], fun _ hb => execDecode_size hb hs f⟩
  subst hs
  by_cases hp : ParityHolds f
  case neg => exact ⟨.parityError, .zero, by simp [DecodeRecords, hp], fun _ hb => exec_decode_of_not_parityHolds hb hp⟩
  by_cases hd : DateHolds f
  case neg => exact ⟨.dateError, .zero, by simp [DecodeRecords, hp, hd], fun _ hb => exec_decode_of_not_dateHolds hb hp hd⟩
  exact ⟨.success, timeValue f, by simp [DecodeRecords, hp, hd], fun _ hb => exec_decode_of_holds hb hp hd⟩

/-- Settles O36: the word, the enabling, the busy case, and `exec_decode_records` for an accepted command. -/
theorem decodeRecordsByTheOrderOfChecks : Obligations.DecodeRecordsByTheOrderOfChecks := by
  intro s size frame
  refine ⟨?encoding, select_cmd_iff, fun hb => execDecode_busy hb size frame, ?accepted⟩
  case encoding =>
    intro h
    exact (congrArg _ (commandWord_eq_cmdBytes OP_DECODE frame h)).trans (decode_decodeBytes frame h)
  case accepted =>
    intro hb
    obtain ⟨r, tv, hrec, hexec⟩ := exec_decode_records size frame
    exact ⟨r, tv, hexec s hb, hrec⟩

/-- Settles O37: both states record the pair that `exec_decode_records` chose without them, and stay not busy. -/
theorem decodeIsAPureFunctionOfItsOperands : Obligations.DecodeIsAPureFunctionOfItsOperands := by
  intro s u size frame hs hu
  obtain ⟨r, tv, -, hexec⟩ := exec_decode_records size frame
  exact ⟨_, _, hexec s hs, hexec u hu, rfl, rfl, hs⟩

end Sys2Proof.Proofs
end

section
/-! PROOFS. The encoding of spec 30: decoder and encoder are inverse, the decoder refuses the ill-formed packets and no
others, and a table word that is placed is run. -/

namespace Sys2Proof.Proofs

open Sys2Proof.Machine Sys2Proof.Claims

/-! ## Decoding a value that was encoded -/

theorem decodeCW_packCW {w : Widths} {size : Nat} (op : BitVec 2) (frame : Frame) (h : size < 2 ^ w.sizeW) :
    decodeCW w (packCW w op size frame) =
      if op = OP_NOP then .nop size frame
      else if op = OP_ACQUIRE then .acquire size frame
      else if op = OP_DECODE then .decode size frame
      else .rsvd size frame := by
  rw [decodeCW, cwOp_packCW op frame h, cwSize_packCW op frame h, cwFrame_packCW]

theorem decodeValue_encodeValue {w : Widths} {i : Instr} (h : i.wf w = true) :
    decodeValue w (selectorOf i) (encodeValue w i) = i := by
  cases i
  case acquire | decode | nop | rsvd => exact decodeCW_packCW _ _ (fits_size.mp h)
  case classify | sync | capture =>
    have hd := fits_dur.mp h
    simp only [selectorOf, encodeValue, decodeValue, decodeCall, rwNoPulse_packRW _ hd, rwDur_packRW _ hd]
  case plaus =>
    simp only [selectorOf, encodeValue, decodeValue, decodeCall, BitVec.ofNat_toNat, BitVec.setWidth_eq, packValues_day,
      packValues_month, packValues_year]
  all_goals simp only [selectorOf, encodeValue, decodeValue, decodeCall, BitVec.ofNat_toNat, BitVec.setWidth_eq]

/-- Settles O10: an operation's word fits its format, so its bytes give its value back, and each field is read where it was
packed. -/
theorem decodeOfEncodeIsTheInstruction : Obligations.DecodeOfEncodeIsTheInstruction := by
  intro w i h
  exact (decode_leBytes (encodeValue_lt h)).trans (congrArg _ (decodeValue_encodeValue h))

/-! ## Encoding what was decoded -/

/-- Three opcodes are named; what is none of them is the fourth (spec 30 R54). -/
theorem op_eq_rsvd_of_ne : ∀ {op : BitVec 2}, op ≠ OP_NOP → op ≠ OP_ACQUIRE → op ≠ OP_DECODE → op = OP_RSVD := by
  decide

/-- A command word is one of the four commands, and its opcode says which. -/
theorem decodeCW_cases (w : Widths) (v : Nat) :
    (cwOp w v = OP_NOP ∧ decodeCW w v = .nop (cwSize w v) (cwFrame v)) ∨
    (cwOp w v = OP_ACQUIRE ∧ decodeCW w v = .acquire (cwSize w v) (cwFrame v)) ∨
    (cwOp w v = OP_DECODE ∧ decodeCW w v = .decode (cwSize w v) (cwFrame v)) ∨
    (cwOp w v = OP_RSVD ∧ decodeCW w v = .rsvd (cwSize w v) (cwFrame v)) := by
  unfold decodeCW
  split
  case isTrue h => exact .inl ⟨h, rfl⟩
  case isFalse hn =>
    split
    case isTrue h => exact .inr (.inl ⟨h, rfl⟩)
    case isFalse ha =>
      split
      case isTrue h => exact .inr (.inr (.inl ⟨h, rfl⟩))
      case isFalse hd => exact .inr (.inr (.inr ⟨op_eq_rsvd_of_ne hn ha hd, rfl⟩))

theorem wf_decodeCW (w : Widths) (v : Nat) : (decodeCW w v).wf w = true := by
  have hs := fits_size.mpr (cwSize_lt w v)
  rcases decodeCW_cases w v with ⟨-, h⟩ | ⟨-, h⟩ | ⟨-, h⟩ | ⟨-, h⟩ <;> rw [h] <;> exact hs

theorem wf_decodeValue (w : Widths) (sel : Selector) (v : Nat) : (decodeValue w sel v).wf w = true := by
  have hd := fits_dur.mpr (rwDur_lt w v)
  cases sel
  case cmd => exact wf_decodeCW w v
  case sync | capture => exact hd
  case call fn =>
    cases fn
    case classify => exact hd
    all_goals rfl

theorem encodeValue_decodeCW {w : Widths} {v : Nat} (hv : v < 2 ^ Format.cw.width w) : encodeValue w (decodeCW w v) = v := by
  have hp := packCW_fields hv
  rcases decodeCW_cases w v with ⟨ho, h⟩ | ⟨ho, h⟩ | ⟨ho, h⟩ | ⟨ho, h⟩ <;> rw [h] <;> rw [ho] at hp <;> exact hp

theorem encodeValue_decodeCall {w : Widths} {fn : Fn} {v : Nat} (hv : v < 2 ^ fn.format.width w) :
    encodeValue w (decodeCall w fn v) = v := by
  cases fn
  case classify => exact packRW_fields hv
  case plaus =>
    exact (congrArg BitVec.toNat (packValues_fields _)).trans
      ((BitVec.toNat_ofNat _ _).trans (Nat.mod_eq_of_lt hv))
  all_goals exact (BitVec.toNat_ofNat _ _).trans (Nat.mod_eq_of_lt hv)

theorem encodeValue_decodeValue {w : Widths} {sel : Selector} {v : Nat} (hv : v < 2 ^ sel.format.width w) :
    encodeValue w (decodeValue w sel v) = v := by
  cases sel
  case cmd => exact encodeValue_decodeCW hv
  case sync | capture => exact packRW_fields hv
  case call fn => exact encodeValue_decodeCall hv

/-- Settles O11: the operation keeps the packet's selector and value, and bytes are the bytes of their value. -/
theorem encodeOfDecodeIsThePacket : Obligations.EncodeOfDecodeIsThePacket := by
  intro w p i h
  obtain ⟨hlen, hv, rfl⟩ := decode_ok h
  refine ⟨wf_decodeValue w p.sel _, ?_⟩
  rw [encode, selectorOf_decodeValue, encodeValue_decodeValue hv, ← hlen, leBytes_leValue]

/-! ## What the decoder refuses -/

theorem wf_iff {w : Widths} {p : Packet} :
    p.wf w = true ↔ p.bytes.length = p.sel.format.bytes w ∧ leValue p.bytes < 2 ^ p.sel.format.width w := by
  rw [Packet.wf, Bool.and_eq_true, beq_iff_eq, decide_eq_true_iff]

theorem decode_of_wrongLength {w : Widths} {p : Packet} (h : p.bytes.length ≠ p.sel.format.bytes w) :
    decode w p = .error .wrongLength := by
  rw [decode, if_pos h]

theorem decode_of_paddingSet {w : Widths} {p : Packet} (h : p.bytes.length = p.sel.format.bytes w)
    (hv : 2 ^ p.sel.format.width w ≤ leValue p.bytes) : decode w p = .error .paddingSet := by
  rw [decode, if_neg (not_not.mpr h), if_pos hv]

/-- Settles O12: a packet has a wrong length, or set padding at the right length, or is well formed, and the decoder answers
the three differently. -/
theorem decoderRefusesExactlyIllFormedPackets : Obligations.DecoderRefusesExactlyIllFormedPackets := by
  intro w p
  rw [wf_iff]
  by_cases hlen : p.bytes.length = p.sel.format.bytes w
  case neg => simp [decode_of_wrongLength hlen, hlen]
  rcases Nat.lt_or_ge (leValue p.bytes) (2 ^ p.sel.format.width w) with hv | hv
  · simp [decode_of_wf (wf_iff.mpr ⟨hlen, hv⟩), hlen, hv]
  · simp [decode_of_paddingSet hlen hv, hlen, hv]

/-- Settles O13: the words are literals and are decoded as they stand. -/
theorem specWordsDecode : Obligations.SpecWordsDecode := by
  unfold Obligations.SpecWordsDecode
  decide

/-! ## A table word placed as the next input (log 8) -/

theorem tablePacket_of_decodeTableWordAt {w : Widths} {nbits v : Nat} {i : Instr}
    (h : decodeTableWordAt w nbits v = some i) : ∃ p, tablePacket w nbits v = some p ∧ decode w p = .ok i := by
  obtain ⟨p, hp, hi⟩ := Option.bind_eq_some_iff.mp h
  refine ⟨p, hp, ?_⟩
  cases hd : decode w p <;> rw [hd] at hi <;> cases hi
  rfl

/-- In the `st` of `enabledSt` the block accepts what the selector selects. -/
theorem select_enabledSt (c : CoreState) (sel : Selector) :
    select { c with st := enabledSt c sel } (portOf sel) = some sel := by
  cases sel
  case cmd => cases hst : c.st <;> simp [portOf, enabledSt, select, CoreState.busy, hst]
  case sync | capture | call => rfl

/-- Where the block accepts the selector's operation already, `enabledSt` is the `st` it has. -/
theorem enabledSt_of_select {c : CoreState} {sel : Selector} (h : select c (portOf sel) = some sel) :
    enabledSt c sel = c.st := by
  cases sel
  case cmd => simp [enabledSt, select_cmd_iff.mp h]
  case sync | capture =>
    cases hst : c.st <;> simp [portOf, select, hst] at h
    rfl
  case call => rfl

theorem step_placePacket {s : State} {p : Packet} {i : Instr} (h : decode s.params.widths p = .ok i) :
    step (placePacket s p) = exec i { s with core := { s.core with st := enabledSt s.core p.sel } } :=
  step_packet (s := placePacket s p) rfl (fetch_present p.bytes (select_enabledSt s.core p.sel)) h

/-- Settles O9: the word's packet is what `withFetchWord` places, and its selector is its operation's. -/
theorem fetchWordRunsTheTableWord : Obligations.FetchWordRunsTheTableWord := by
  refine ⟨fun s nbits w i h => ?_, fun _ _ => rfl⟩
  obtain ⟨p, hp, hi⟩ := tablePacket_of_decodeTableWordAt h
  refine ⟨?_, select_enabledSt s.core _, enabledSt_of_select⟩
  rw [State.withFetchWord, placeTableWord, hp, selectorOf_of_decode hi]
  exact step_placePacket hi

end Sys2Proof.Proofs
end

section
/-! PROOFS. What every step keeps (spec 10): the invariants, and which step may change which element. -/

namespace Sys2Proof.Proofs

open Sys2Proof.Machine Sys2Proof.Claims

/-! ## The classifier's results in the words of the statements (spec 40 R70) -/

theorem isBit_of_classify {p : Params} {noPulse : Bool} {dur : Nat} {b : Bool}
    (h : classify p noPulse dur = if b then .bit1 else .bit0) : IsBit p noPulse dur b := by
  rcases classify_cases p noPulse dur with ⟨-, hc⟩ | ⟨-, -, hc⟩ | ⟨hn, hl, hu, hc⟩ | ⟨hn, hl, hu, hc⟩ | ⟨-, -, hc⟩ <;>
    rw [hc] at h <;> cases b <;> cases h
  · exact ⟨hn, .inl ⟨rfl, hl, hu⟩⟩
  · exact ⟨hn, .inr ⟨rfl, hl, hu⟩⟩

theorem isFailure_of_noPulse {p : Params} {noPulse : Bool} {dur : Nat} (h : classify p noPulse dur = .noPulse) :
    IsFailure p noPulse dur .noPulse := by
  rcases classify_cases p noPulse dur with ⟨hn, -⟩ | ⟨-, -, hc⟩ | ⟨-, -, -, hc⟩ | ⟨-, -, -, hc⟩ | ⟨-, -, hc⟩
  · exact .inl ⟨hn, rfl⟩
  all_goals rw [hc] at h; cases h

theorem isFailure_of_outOfRange {p : Params} {noPulse : Bool} {dur : Nat} (h : classify p noPulse dur = .outOfRange) :
    IsFailure p noPulse dur .outOfRange := by
  rcases classify_cases p noPulse dur with ⟨-, hc⟩ | ⟨hn, hl, -⟩ | ⟨-, -, -, hc⟩ | ⟨-, -, -, hc⟩ | ⟨hn, hl, -⟩
  case inr.inl => exact .inr ⟨hn, .inl hl, rfl⟩
  case inr.inr.inr.inr => exact .inr ⟨hn, .inr hl, rfl⟩
  all_goals rw [hc] at h; cases h

/-! ## The moves keep the invariants (spec 10 R28) -/

theorem inv_reset : Inv CoreState.reset := by constructor <;> decide

section Moves

variable {c : CoreState}

theorem inv_startAcquisition (h : Inv c) : Inv c.startAcquisition where
  idxBound := Nat.zero_le 59
  idle := nofun
  waitMarker _ := ⟨rfl, rfl⟩
  capture := nofun
  complete := nofun
  timedOut := nofun
  cause := by simp
  tvZero := h.tvZero
  tvNonzero := h.tvNonzero
  success := nofun
  timeout := nofun

/-- Of the five states only the busy two do not allow `INVALID_SIZE`. -/
theorem inv_raise_acquireInvalidSize (h : Inv c) (hb : c.busy = false) : Inv (raise .acquireInvalidSize c) where
  idxBound := h.idxBound
  idle := h.idle
  waitMarker hst := absurd (c.busy_iff.mpr (.inl hst)) (by simp [hb])
  capture hst := absurd (c.busy_iff.mpr (.inr hst)) (by simp [hb])
  complete hst := ⟨(h.complete hst).1, .inr rfl⟩
  timedOut hst := ⟨(h.timedOut hst).1, .inr rfl⟩
  cause := by simp
  tvZero := h.tvZero
  tvNonzero := h.tvNonzero
  success := nofun
  timeout := nofun

theorem inv_enterCapture (h : Inv c) (hst : c.st = .waitMarker) : Inv c.enterCapture := by
  obtain ⟨hidx, hres⟩ := h.waitMarker hst
  exact { h with
    idle := nofun
    waitMarker := nofun
    capture := fun _ => ⟨by simp [hidx], hres⟩
    complete := nofun
    timedOut := nofun
    success := fun hs => absurd (hres.symm.trans hs) nofun
    timeout := fun hs => absurd (hres.symm.trans hs) nofun }

theorem inv_advance (h : Inv c) (fb : Frame) (hst : c.st = .capture) (hl : c.idx ≠ 58) : Inv (c.advance fb) := by
  obtain ⟨hidx, hres⟩ := h.capture hst
  have hnext : (c.advance fb).idx.toNat ≤ 58 := by rw [CoreState.advance_idx]; bv_omega
  exact { h with
    idxBound := Nat.le_succ_of_le hnext
    idle := fun hs => absurd (hst.symm.trans hs) nofun
    waitMarker := fun hs => absurd (hst.symm.trans hs) nofun
    capture := fun _ => ⟨hnext, hres⟩
    complete := fun hs => absurd (hst.symm.trans hs) nofun
    timedOut := fun hs => absurd (hst.symm.trans hs) nofun }

/-- In `CAPTURE` the result is `NONE`, so the cause is. -/
theorem inv_complete (h : Inv c) (fb : Frame) (hst : c.st = .capture) (hl : c.idx = 58) : Inv (c.complete fb) where
  idxBound := by simp [hl]
  idle := nofun
  waitMarker := nofun
  capture := nofun
  complete _ := ⟨by simp [hl], .inl rfl⟩
  timedOut := nofun
  cause := by
    have := h.cause
    simp_all [(h.capture hst).2]
  tvZero := h.tvZero
  tvNonzero := h.tvNonzero
  success _ := rfl
  timeout := nofun

theorem inv_raise_timeout {cause : AcqCause} (h : Inv c) (hst : c.st = .capture) (hc : cause ≠ .none) :
    Inv (raise (.timeout cause) c) where
  idxBound := h.idxBound
  idle := nofun
  waitMarker := nofun
  capture := nofun
  complete := nofun
  timedOut _ := ⟨(h.capture hst).1, .inl rfl⟩
  cause := iff_of_true hc rfl
  tvZero := h.tvZero
  tvNonzero := h.tvNonzero
  success := nofun
  timeout _ := rfl

/-- The decoder's two elements are in the invariants of the decoder alone. -/
theorem inv_record {r : DecResult} {tv : TimeValue} (h : Inv c) (hz : r ≠ .success → tv = TimeValue.zero)
    (hn : r = .success → tv.day ≠ 0 ∧ tv.month ≠ 0 ∧ tv.year ≠ 0) : Inv { c with decResult := r, tv := tv } :=
  { h with tvZero := hz, tvNonzero := hn }

/-- Every move keeps the invariants. -/
theorem inv_of_move {p : Params} {i : Instr} {c' : CoreState} (m : CoreMove p i c c') (h : Inv c) : Inv c' := by
  cases m
  case stay => exact h
  case start => exact inv_startAcquisition h
  case reject idle _ => exact inv_raise_acquireInvalidSize h idle
  case marker st => exact inv_enterCapture h st
  case store st _ _ hl => exact inv_advance h _ st hl
  case last st _ _ hl => exact inv_complete h _ st hl
  case lost st _ => exact inv_raise_timeout h st nofun
  case bad st _ => exact inv_raise_timeout h st nofun
  case size => exact inv_record h (fun _ => rfl) nofun
  case parity => exact inv_record h (fun _ => rfl) nofun
  case date => exact inv_record h (fun _ => rfl) nofun
  case publish hd => exact inv_record h (fun hn => absurd rfl hn) (fun _ => (plausOk_iff _ _ _).mp hd)

end Moves

/-! ## The step -/

/-- A step in the words of the statements: Reset, or the core as it was, or the operation it runs. -/
theorem step_resets_or_execs {s t : State} (h : step s = .next t) :
    (Resets s ∧ t.core = resetCore) ∨ t.core = s.core ∨
      ∃ i rest, Runs s i ∧ exec i { s with inputs := rest } = .next t := by
  rcases step_cases h with ⟨rfl, -⟩ | ⟨inp, rest, hi, ⟨-, rfl⟩ | ⟨hf, rfl⟩ | ⟨p, i, hf, hd, he⟩⟩
  · exact .inr (.inl rfl)
  · exact .inr (.inl rfl)
  · exact .inl ⟨⟨inp, by rw [hi]; rfl, hf⟩, rfl⟩
  · exact .inr (.inr ⟨i, rest, ⟨inp, p, by rw [hi]; rfl, hf, hd⟩, he⟩)

/-- The same with the move the operation makes. -/
theorem step_resets_or_moves {s t : State} (h : step s = .next t) :
    (Resets s ∧ t.core = resetCore) ∨ t.core = s.core ∨ ∃ i, Runs s i ∧ CoreMove s.params i s.core t.core := by
  rcases step_resets_or_execs h with hr | ht | ⟨i, rest, hrun, he⟩
  · exact .inl hr
  · exact .inr (.inl ht)
  · exact .inr (.inr ⟨i, hrun, (exec_move he).1⟩)

/-- Settles O47: the reset core meets the invariants, and every move of an operation keeps them. -/
theorem stepKeepsTheInvariants : Obligations.StepKeepsTheInvariants := by
  intro s t hinv h
  rcases step_resets_or_moves h with ⟨-, ht⟩ | ht | ⟨i, -, hm⟩
  · exact ht ▸ inv_reset
  · exact ht ▸ hinv
  · exact inv_of_move hm hinv

/-- A step faults only as an operation does. -/
theorem step_fault {s : State} {f : Fault} (h : step s = .fault f) :
    ∃ i rest, exec i { s with inputs := rest } = .fault f := by
  cases hi : s.inputs
  case nil => rw [step_nil hi] at h; cases h
  case cons inp rest =>
    cases hf : fetch s.params.widths s.core inp
    case nothing => rw [step_nothing hi hf] at h; cases h
    case reset => rw [step_reset hi hf] at h; cases h
    case packet p =>
      cases hd : decode s.params.widths p
      case error e => rw [step_refused hi hf hd] at h; cases h
      case ok i => exact ⟨i, rest, (step_packet hi hf hd).symm.trans h⟩

/-- Settles O48: a fault needs `CAPTURE` with `idx` at 59 or more, and in `CAPTURE` the invariants bound `idx` by 58. -/
theorem invariantStatesStepSafely : Obligations.InvariantStatesStepSafely := by
  intro s hinv f h
  obtain ⟨i, rest, he⟩ := step_fault h
  obtain ⟨hst, hidx, -⟩ := exec_fault he
  exact absurd (hinv.capture hst).1 (Nat.not_le.mpr hidx)

/-! ## Which step may change which element -/

/-- Settles O49: the moves that write `st` are the start, the marker, the last bit and the two failures. -/
theorem acquisitionStateMovesOnlyAsListed : Obligations.AcquisitionStateMovesOnlyAsListed := by
  intro s t h
  rcases step_resets_or_moves h with hr | ht | ⟨i, hrun, hm⟩
  · exact .inr (.inl hr)
  · exact .inl (by rw [ht])
  generalize t.core = c' at hm ⊢
  cases hm
  case start frame hi idle => exact .inr (.inr (.inl ⟨idle, rfl, rfl, frame, hi ▸ hrun⟩))
  case marker dur hi st => exact .inr (.inr (.inr (.inl ⟨st, rfl, rfl, dur, hi ▸ hrun⟩)))
  case last noPulse dur v fb hi st hc _ hl =>
    exact .inr (.inr (.inr (.inr (.inl
      ⟨st, rfl, hl, by simp [hl], noPulse, dur, v, hi ▸ hrun, isBit_of_classify hc⟩))))
  case lost noPulse dur hi st hc =>
    exact .inr (.inr (.inr (.inr (.inr ⟨st, rfl, rfl, noPulse, dur, _, hi ▸ hrun, isFailure_of_noPulse hc⟩))))
  case bad noPulse dur hi st hc =>
    exact .inr (.inr (.inr (.inr (.inr ⟨st, rfl, rfl, noPulse, dur, _, hi ▸ hrun, isFailure_of_outOfRange hc⟩))))
  all_goals exact .inl rfl

/-- Settles O50: the moves that write `idx` are the start and the two that store a bit. -/
theorem idxChangesOnlyByAcquireCaptureReset : Obligations.IdxChangesOnlyByAcquireCaptureReset := by
  intro s t h
  rcases step_resets_or_moves h with hr | ht | ⟨i, hrun, hm⟩
  · exact .inr (.inl hr)
  · exact .inl (by rw [ht])
  generalize t.core = c' at hm ⊢
  cases hm
  case start frame hi idle => exact .inr (.inr (.inl ⟨idle, rfl, rfl, frame, hi ▸ hrun⟩))
  case store noPulse dur v fb hi st hc hw _ | last noPulse dur v fb hi st hc hw _ =>
    obtain ⟨hin, hcell, -⟩ := memWrite_spec hw
    have hidx : s.core.idx.toNat < 59 := hin
    refine .inr (.inr (.inr ⟨st, Nat.le_of_lt_succ hidx, ?_, noPulse, dur, v, hi ▸ hrun, isBit_of_classify hc, hcell⟩))
    simp only [CoreState.advance_idx, CoreState.complete_idx]
    bv_omega
  all_goals exact .inl rfl

/-- Settles O51: the start, the marker and the moves of `CAPTURE` are the only ones that write `st` or `idx`. -/
theorem programCounterMovesOnlyByAcquireSyncCapture : Obligations.ProgramCounterMovesOnlyByAcquireSyncCapture := by
  intro i s t h hpc
  obtain ⟨hm, -⟩ := exec_move h
  generalize t.core = c' at hm hpc
  cases hm
  case start frame hi idle => exact .inl ⟨idle, frame, hi⟩
  case marker dur hi st => exact .inr (.inl ⟨st, dur, hi⟩)
  case store noPulse dur _ _ hi st _ _ _ | last noPulse dur _ _ hi st _ _ _ | lost noPulse dur hi st _ |
      bad noPulse dur hi st _ => exact .inr (.inr ⟨st, noPulse, dur, hi⟩)
  all_goals exact absurd rfl hpc

/-- Settles O52: the two moves that store a bit write `FB`, one cell of it. -/
theorem bufferChangesOnlyAtIdxInCapture : Obligations.BufferChangesOnlyAtIdxInCapture := by
  intro s t h
  rcases step_resets_or_moves h with hr | ht | ⟨i, hrun, hm⟩
  · exact .inr (.inl hr)
  · exact .inl (by rw [ht])
  generalize t.core = c' at hm ⊢
  cases hm
  case store noPulse dur v fb hi st hc hw _ | last noPulse dur v fb hi st hc hw _ =>
    obtain ⟨-, hcell, hothers⟩ := memWrite_spec hw
    exact .inr (.inr ⟨st, hothers, noPulse, dur, v, hi ▸ hrun, isBit_of_classify hc, hcell⟩)
  all_goals exact .inl rfl

/-- What an accepted `DECODE` records in `dec_result` and `TV` is fixed by its operands. -/
theorem decodeRecords_of_exec {s t : State} {size : Nat} {frame : Frame} (hb : s.core.busy = false)
    (h : exec (.decode size frame) s = .next t) : DecodeRecords size frame t.core.decResult t.core.tv := by
  obtain ⟨r, tv, hrec, hexec⟩ := exec_decode_records size frame
  rw [hexec s hb] at h
  cases h
  exact hrec

/-- Settles O53: the moves that write the decoder's two elements are those of a `DECODE`. -/
theorem decodeResultsChangeOnlyByDecode : Obligations.DecodeResultsChangeOnlyByDecode := by
  intro s t h hne
  rcases step_resets_or_execs h with hr | ht | ⟨i, rest, hrun, he⟩
  · exact .inl hr
  · rw [ht] at hne; simp at hne
  have accepted : ∀ size frame, i = .decode size frame → s.core.busy = false →
      ∃ size frame, Runs s (.decode size frame) ∧ DecodeRecords size frame t.core.decResult t.core.tv := by
    rintro size frame rfl hb
    exact ⟨size, frame, hrun, decodeRecords_of_exec (s := { s with inputs := rest }) hb he⟩
  obtain ⟨hm, -⟩ := exec_move he
  generalize t.core = c' at hm hne accepted ⊢
  cases hm
  case size size frame hi idle _ => exact .inr ⟨idle, accepted size frame hi idle⟩
  case parity frame hi idle _ | date frame hi idle _ _ | publish frame hi idle _ _ =>
    exact .inr ⟨idle, accepted 59 frame hi idle⟩
  all_goals simp at hne

/-- Settles O54: from a busy state only the last bit and the two failures lead to a state that is not busy. -/
theorem onlyAResponseOrResetEndsAnAcquisition : Obligations.OnlyAResponseOrResetEndsAnAcquisition := by
  intro s t h hs ht
  rcases step_resets_or_moves h with hr | hcore | ⟨i, hrun, hm⟩
  · exact .inl hr
  · rw [hcore, hs] at ht; cases ht
  generalize t.core = c' at hm ht ⊢
  cases hm
  case last noPulse dur v fb hi st hc _ _ =>
    exact .inr ⟨st, noPulse, dur, hi ▸ hrun, .inl ⟨rfl, rfl, v, isBit_of_classify hc⟩⟩
  case lost noPulse dur hi st hc =>
    exact .inr ⟨st, noPulse, dur, hi ▸ hrun, .inr ⟨rfl, rfl, _, isFailure_of_noPulse hc, rfl⟩⟩
  case bad noPulse dur hi st hc =>
    exact .inr ⟨st, noPulse, dur, hi ▸ hrun, .inr ⟨rfl, rfl, _, isFailure_of_outOfRange hc, rfl⟩⟩
  case start | marker => cases ht
  all_goals cases hs.symm.trans ht

end Sys2Proof.Proofs
end

section
/-! PROOFS. One step (spec 70, spec 30 section 6): what Reset leaves, what an edge and a line run, and what a step consumes. -/

namespace Sys2Proof.Proofs

open Sys2Proof.Machine Sys2Proof.Claims

/-! ## Reset -/

/-- A step whose input is Reset, as an event or at an edge, leaves the reset core and touches nothing else of the block. -/
theorem step_of_fetch_reset {s : State} {inp : Input} {rest : List Input} (h : s.inputs = inp :: rest)
    (hf : fetch s.params.widths s.core inp = .reset) :
    ∃ t, step s = .next t ∧ t.core = resetCore ∧ t.params = s.params ∧ t.inputs = rest :=
  ⟨_, step_reset h hf, rfl, rfl, rfl⟩

/-- Settles O1: the outputs are those of the reset core. -/
theorem resetEventRestoresEveryElement : Obligations.ResetEventRestoresEveryElement := by
  intro s rest h
  obtain ⟨t, hstep, hcore, hparams, hinputs⟩ := step_of_fetch_reset h (fetch_reset _ _)
  refine ⟨t, hstep, hcore, hparams, hinputs, ?_⟩
  rw [hcore]
  exact ⟨rfl, rfl, rfl, rfl, rfl, rfl⟩

/-- Settles O2: `rst_i` is asked first, so the other ports are not looked at. -/
theorem resetEdgeWinsOverOtherInputs : Obligations.ResetEdgeWinsOverOtherInputs := by
  intro s p rest h hrst
  exact step_of_fetch_reset h (fetch_edge_reset hrst)

/-- Settles O3: the core and the two default widths are literals of `State.reset`; only the four numbers are left open. -/
theorem resetStateMeetsTheInvariants : Obligations.ResetStateMeetsTheInvariants :=
  ⟨rfl, inv_reset, rfl, rfl⟩

/-! ## Responses and commands that are not accepted -/

theorem step_response_of_not_busy {s : State} {noPulse : Bool} {dur : Nat} {rest : List Input} (hb : s.core.busy = false)
    (h : s.inputs = response s.params.widths noPulse dur :: rest) : step s = .next { s with inputs := rest } :=
  step_nothing h (fetch_present_none _ (select_rsp_idle hb))

theorem step_command_of_busy {s : State} {bytes : List Byte} {rest : List Input} (hb : s.core.busy = true)
    (h : s.inputs = .event (.present .cmd bytes) :: rest) : step s = .next { s with inputs := rest } :=
  step_nothing h (fetch_present_none bytes (select_cmd_busy hb))

theorem step_edge_of_not_busy {s : State} {p : Ports} {rest : List Input} (hb : s.core.busy = false)
    (h : s.inputs = .edge p :: rest) (hr : p.rst = false) (hv : p.cmdValid = false) :
    step s = .next { s with inputs := rest } :=
  step_nothing h (fetch_edge_nothing hr (by rw [hv]; rfl) (by rw [hb, Bool.and_false]))

theorem step_edge_of_busy {s : State} {p : Ports} {rest : List Input} (hb : s.core.busy = true)
    (h : s.inputs = .edge p :: rest) (hr : p.rst = false) (hv : p.psValid = false) :
    step s = .next { s with inputs := rest } :=
  step_nothing h (fetch_edge_nothing hr (by rw [hb]; exact Bool.and_false _) (by rw [hv]; rfl))

theorem exec_response_of_not_busy {s : State} (hb : s.core.busy = false) (noPulse : Bool) (dur : Nat) :
    exec (.sync noPulse dur) s = .next s ∧ exec (.capture noPulse dur) s = .next s := by
  have hnot : ∀ st, s.core.st = st → st = .waitMarker ∨ st = .capture → False := by
    rintro _ rfl hst
    simp [s.core.busy_iff.mpr hst] at hb
  exact ⟨execSync_elsewhere (fun hst => hnot _ hst (.inl rfl)) noPulse dur,
    execCapture_elsewhere (fun hst => hnot _ hst (.inr rfl)) noPulse dur⟩

/-- Settles O21: no request is open, and what no request asks for selects no operation. -/
theorem responsesOutsideAnAcquisitionAreLost : Obligations.ResponsesOutsideAnAcquisitionAreLost := by
  intro s noPulse dur p rest hb
  obtain ⟨hsync, hcapture⟩ := exec_response_of_not_busy hb noPulse dur
  exact ⟨hb, hsync, hcapture, step_response_of_not_busy hb, step_edge_of_not_busy hb⟩

/-- Settles O4: after Reset the block is not busy, and the response is one it does not accept. -/
theorem resetAbandonsAnAcquisition : Obligations.ResetAbandonsAnAcquisition := by
  intro s noPulse dur rest _ h
  obtain ⟨t, hstep, hcore, hparams, hinputs⟩ := step_of_fetch_reset h (fetch_reset _ _)
  have hlost : step t = .next { t with inputs := rest } :=
    step_response_of_not_busy (by rw [hcore]; rfl) (hparams ▸ hinputs)
  refine ⟨_, (run_succ hstep).trans (run_one hlost), hcore, rfl, ?_⟩
  simp only [hcore]
  exact ⟨rfl, rfl⟩

/-- Settles O42: a busy block's four commands change nothing, and neither its command port nor an edge delivers one. -/
theorem commandsAreNotTakenWhileBusy : Obligations.CommandsAreNotTakenWhileBusy := by
  intro s size frame bytes p rest hb
  refine ⟨?_, step_command_of_busy hb, step_edge_of_busy hb⟩
  simp only [commands, List.forall_mem_cons]
  exact ⟨rfl, execAcquire_busy hb size frame, execDecode_busy hb size frame, rfl, by simp⟩

/-! ## One input, one step -/

/-- Settles O5: `step_packet`, the step's rule for a packet that decodes. -/
theorem stepRunsTheDecodedInstruction : Obligations.StepRunsTheDecodedInstruction := by
  intro s inp rest p i h hf hd
  exact step_packet h hf hd

/-- Settles O7: `step_nil`, the step's rule for no input. -/
theorem noInputMeansNoChange : Obligations.NoInputMeansNoChange := fun _ h => step_nil h

/-- Settles O8: the input is taken before anything runs, and no operation writes the inputs or the parameters. -/
theorem stepConsumesOneInputAndKeepsParameters : Obligations.StepConsumesOneInputAndKeepsParameters := by
  intro s t h
  rcases step_cases h with ⟨rfl, hnil⟩ | ⟨inp, rest, hi, ⟨-, rfl⟩ | ⟨-, rfl⟩ | ⟨p, i, -, -, he⟩⟩
  · rw [hnil]; exact ⟨rfl, rfl⟩
  · rw [hi]; exact ⟨rfl, rfl⟩
  · rw [hi]; exact ⟨rfl, rfl⟩
  · obtain ⟨-, hparams, hinputs⟩ := exec_move he
    rw [hi]
    exact ⟨hinputs, hparams⟩

/-! ## The words of the two ports -/

section Ports

variable {s : State} {inp : Input} {rest : List Input}

/-- An accepted response in `WAIT_MARKER` is a `SYNC` step. -/
theorem step_rspBytes_sync {noPulse : Bool} {dur : Nat} (h : s.inputs = inp :: rest)
    (hf : fetch s.params.widths s.core inp = .packet { sel := .sync, bytes := rspBytes s.params.widths noPulse dur })
    (hd : dur < 2 ^ s.params.durW) : step s = exec (.sync noPulse dur) { s with inputs := rest } :=
  step_packet h hf (decode_rspBytes_sync noPulse hd)

/-- An accepted response in `CAPTURE` is a `CAPTURE` step. -/
theorem step_rspBytes_capture {noPulse : Bool} {dur : Nat} (h : s.inputs = inp :: rest)
    (hf : fetch s.params.widths s.core inp = .packet { sel := .capture, bytes := rspBytes s.params.widths noPulse dur })
    (hd : dur < 2 ^ s.params.durW) : step s = exec (.capture noPulse dur) { s with inputs := rest } :=
  step_packet h hf (decode_rspBytes_capture noPulse hd)

end Ports

/-! ## Edges -/

/-- Settles O6: `fetch` takes the one event of the edge, and the word on its port decodes to the operation named. -/
theorem edgeRunsAtMostOneEvent : Obligations.EdgeRunsAtMostOneEvent := by
  intro s p rest h hr
  refine ⟨?command, ?sync, ?capture, fun hb hv => step_edge_of_not_busy hb h hr hv,
    fun hb hv => step_edge_of_busy hb h hr hv⟩
  case command =>
    intro hv hb hsize
    have hf := fetch_edge_cmd (w := s.params.widths) hr hv hb
    refine ⟨fun hop => ?_, fun hop => ?_, fun hop => ?_, fun hop => ?_⟩ <;> rw [hop] at hf
    · exact step_packet h hf (decode_nopBytes p.cmdFrame hsize)
    · exact step_packet h hf (decode_acquireBytes p.cmdFrame hsize)
    · exact step_packet h hf (decode_decodeBytes p.cmdFrame hsize)
    · exact step_packet h hf (decode_rsvdBytes p.cmdFrame hsize)
  case sync =>
    intro hv hst hdur
    exact step_rspBytes_sync h (fetch_edge_rsp hr hv (s.core.busy_iff.mpr (.inl hst)) (select_rsp_wait hst)) hdur
  case capture =>
    intro hv hst hdur
    exact step_rspBytes_capture h (fetch_edge_rsp hr hv (s.core.busy_iff.mpr (.inr hst)) (select_rsp_capture hst)) hdur

/-! ## Lines (spec 30 R63) -/

/-- A line that is not enabled selects no operation. -/
theorem fetch_line_of_not_enabled {w : Widths} {c : CoreState} {l : Line} (h : l.enabled c = false) :
    fetch w c (.event (l.event w)) = .nothing := by
  cases l
  case reset => cases h
  case nop | acquire | decode | rsvd => exact fetch_present_none _ (select_cmd_busy ((Bool.not_eq_false' _).mp h))
  case p | np => exact fetch_present_none _ (select_rsp_idle h)

/-- Settles O57: a line is its event, and each clause is the rule of that event. -/
theorem linesRunTheirOperations : Obligations.LinesRunTheirOperations := by
  intro s l rest h
  refine ⟨?reset, ?commands, ?responses, ?passed, ?command, ?sync, ?capture⟩
  case reset =>
    rintro rfl
    exact ⟨rfl, step_of_fetch_reset h (fetch_reset _ _)⟩
  case commands => rintro (rfl | rfl | ⟨_, rfl⟩ | ⟨_, _, rfl⟩) <;> exact Iff.of_eq (Bool.not_eq_true' _)
  case responses => rintro (rfl | ⟨_, rfl⟩) <;> exact Iff.rfl
  case passed => exact fun he => step_nothing h (fetch_line_of_not_enabled he)
  case command =>
    intro hb
    have hcmd := select_cmd_idle hb
    have hzero : 0 < 2 ^ s.params.sizeW := Nat.two_pow_pos _
    refine ⟨?nop, ?acquire, ?decode, ?rsvd⟩
    case nop =>
      rintro rfl
      exact step_packet h (fetch_present _ hcmd) (decode_nopBytes 0 hzero)
    case acquire =>
      rintro size hsize rfl
      exact step_packet h (fetch_present _ hcmd) (decode_acquireBytes 0 hsize)
    case decode =>
      rintro size frame hsize rfl
      exact step_packet h (fetch_present _ hcmd) (decode_decodeBytes frame hsize)
    case rsvd =>
      rintro rfl
      exact step_packet h (fetch_present _ hcmd) (decode_rsvdBytes 0 hzero)
  case sync =>
    intro hst
    refine ⟨?_, ?_⟩
    · rintro dur hdur rfl
      exact step_rspBytes_sync h (fetch_present _ (select_rsp_wait hst)) hdur
    · rintro rfl
      exact step_rspBytes_sync h (fetch_present _ (select_rsp_wait hst)) (Nat.two_pow_pos _)
  case capture =>
    intro hst
    refine ⟨?_, ?_⟩
    · rintro dur hdur rfl
      exact step_rspBytes_capture h (fetch_present _ (select_rsp_capture hst)) hdur
    · rintro rfl
      exact step_rspBytes_capture h (fetch_present _ (select_rsp_capture hst)) (Nat.two_pow_pos _)

/-! ## Values too wide for their port (log 12) -/

/-- A busy block accepts a response, as a word of the response format. -/
theorem select_rsp_of_busy {c : CoreState} (hb : c.busy = true) : ∃ sel, select c .rsp = some sel ∧ sel.format = .rw := by
  rcases c.busy_iff.mp hb with hst | hst
  · exact ⟨.sync, select_rsp_wait hst, rfl⟩
  · exact ⟨.capture, select_rsp_capture hst, rfl⟩

/-- Settles O58: the value has no word, so the port delivers no bytes, and no bytes are no word of a format. -/
theorem valuesTooWideForTheirPortAreRefused : Obligations.ValuesTooWideForTheirPortAreRefused := by
  intro s p rest
  refine ⟨?edgeCommand, ?edgeResponse, ?lineCommand, ?lineResponse⟩
  case edgeCommand =>
    intro h hr hv hb hwide
    exact step_refused h (fetch_edge_cmd hr hv hb) (decode_cmdBytes_wide _ _ hwide)
  case edgeResponse =>
    intro h hr hv hb hwide
    obtain ⟨sel, hsel, hrw⟩ := select_rsp_of_busy hb
    exact step_refused h (fetch_edge_rsp hr hv hb hsel) (decode_rspBytes_wide _ hwide hrw)
  case lineCommand =>
    rintro l size (rfl | ⟨frame, rfl⟩) h hb hwide <;>
      exact step_refused h (fetch_present _ (select_cmd_idle hb)) (decode_cmdBytes_wide _ _ hwide)
  case lineResponse =>
    intro dur h hb hwide
    obtain ⟨sel, hsel, hrw⟩ := select_rsp_of_busy hb
    exact step_refused h (fetch_present _ hsel) (decode_rspBytes_wide _ hwide hrw)

end Sys2Proof.Proofs
end

section
/-! PROOFS. The frame (spec 43, 44, 45): the fields, their positions and their sums, the parity checks under flips, and the
plausibility check; and the bounds of the classifier (spec 40). -/

namespace Sys2Proof.Proofs

open Sys2Proof.Machine Sys2Proof.Claims

/-! ## The classifier's boundaries -/

/-- Settles O15: each boundary is the closed or the open end of one of the regions, which the parameters keep in order. -/
theorem classifyAtTheBoundaries : Obligations.ClassifyAtTheBoundaries := by
  intro p
  obtain ⟨-, hlow, hbit0, -⟩ := p.ok
  exact ⟨classify_tooShort (Nat.zero_le _), classify_tooShort le_rfl, classify_bit0 (Nat.lt_succ_self _) hlow,
    classify_bit0 hlow le_rfl, classify_bit1 (Nat.lt_succ_self _) hbit0, classify_bit1 hbit0 le_rfl,
    classify_tooLong (Nat.lt_succ_self _), classify_tooLong, fun h => h ▸ classify_bit1 hbit0 le_rfl⟩

/-! ## What the fields report -/

/-- Settles O28: a field of one bit has the weight 1, so its sum is the bit. -/
theorem extractFlagsReadOneBit : Obligations.ExtractFlagsReadOneBit := by
  intro s f
  rw [bit, bit, ← extract_transmitterFault, ← extract_a1]
  exact ⟨rfl, rfl⟩

theorem extract_weekday_eq_weekdaySum (f : Frame) : extract f .weekday = weekdaySum f := extract_weekday f

/-- Settles O30: each operation reports its field's sum and writes nothing else; `extract_le` bounds the four sums. -/
theorem extractDateFields : Obligations.ExtractDateFields := by
  intro s f
  rw [← extract_day_eq_daySum, ← extract_weekday_eq_weekdaySum, ← extract_month_eq_monthSum, ← extract_year_eq_yearSum]
  exact ⟨rfl, extract_le f .day, rfl, extract_le f .weekday, rfl, extract_le f .month, rfl, extract_le f .year⟩

/-! ## Where the fields lie (spec 30 R51) -/

/-- Of two fields one ends before the other begins. -/
theorem fieldRange_disjoint (fd fe : Field) : fd = fe ∨ (fieldRange fd).1 + (fieldRange fd).2 ≤ (fieldRange fe).1 ∨
    (fieldRange fe).1 + (fieldRange fe).2 ≤ (fieldRange fd).1 := by
  cases fd <;> cases fe <;> decide

/-- A field ends before a parity position or begins after it. -/
theorem fieldRange_misses_parity (fd : Field) : ∀ k ∈ [28, 35, 58],
    (fieldRange fd).1 + (fieldRange fd).2 ≤ k ∨ k < (fieldRange fd).1 := by
  cases fd <;> decide

/-- Settles O31: equal cells give equal sums, and the field table has no overlap. -/
theorem extractReadsOnlyItsField : Obligations.ExtractReadsOnlyItsField := by
  refine ⟨fun f g fd agree => extract_congr agree, fun fd fe k hd hd' he he' => ?_, fun fd k h h' => ?_⟩
  · rcases fieldRange_disjoint fd fe with heq | hle | hle
    · exact heq
    · omega
    · omega
  · have h28 := fieldRange_misses_parity fd 28 (by simp)
    have h35 := fieldRange_misses_parity fd 35 (by simp)
    have h58 := fieldRange_misses_parity fd 58 (by simp)
    omega

/-! ## A field that is zero -/

theorem fieldRange_le_eight (fd : Field) : (fieldRange fd).2 ≤ 8 := by
  cases fd <;> decide

theorem weight_ne_zero {i : Nat} (h : i < 8) : WEIGHT.getD i 0 ≠ 0 := by
  interval_cases i <;> decide

/-- No weight is zero, so only a field without a 1 has the sum zero. -/
theorem extract_eq_zero_iff (f : Frame) (fd : Field) : extract f fd = 0 ↔
    ∀ k, (fieldRange fd).1 ≤ k → k < (fieldRange fd).1 + (fieldRange fd).2 → f.getLsbD k = false := by
  have hterm : ∀ i, i < (fieldRange fd).2 →
      (WEIGHT.getD i 0 * (f.getLsbD ((fieldRange fd).1 + i)).toNat = 0 ↔ f.getLsbD ((fieldRange fd).1 + i) = false) := by
    intro i hi
    have hw := weight_ne_zero (Nat.lt_of_lt_of_le hi (fieldRange_le_eight fd))
    rw [Nat.mul_eq_zero, or_iff_right hw, Bool.toNat_eq_zero]
  rw [extract_eq, Nat.min_eq_left (fieldRange_le_eight fd), List.sum_eq_zero_iff]
  simp only [List.forall_mem_map, List.mem_range]
  constructor
  · intro h k hlo hhi
    obtain ⟨i, rfl⟩ := Nat.exists_eq_add_of_le hlo
    have hi : i < (fieldRange fd).2 := by omega
    exact (hterm i hi).mp (h i hi)
  · intro h i hi
    exact (hterm i hi).mpr (h _ (Nat.le_add_right _ _) (by omega))

/-- Settles O35: the three fields lose nothing in their widths, so they are zero where their sums are. -/
theorem dateFieldIsZeroWhenItsBitsAre : Obligations.DateFieldIsZeroWhenItsBitsAre := by
  intro f
  have hday := extract_eq_zero_iff f .day
  have hmonth := extract_eq_zero_iff f .month
  have hyear := extract_eq_zero_iff f .year
  rw [extract_day_eq_daySum, ← valueDay_eq_zero_iff] at hday
  rw [extract_month_eq_monthSum, ← valueMonth_eq_zero_iff] at hmonth
  rw [extract_year_eq_yearSum, ← valueYear_eq_zero_iff] at hyear
  simp only [fieldRange, Nat.reduceAdd, Nat.lt_succ_iff] at hday hmonth hyear
  exact ⟨hday, hmonth, hyear⟩

/-! ## The parity checks under flips (spec 44 R119) -/

/-- The count of the differing positions is odd exactly when the two exclusive-ors differ. -/
theorem decide_flips_odd (f g : Frame) (lo n : Nat) :
    decide (flips f g lo n % 2 = 1) = (xorRange f lo n ^^ xorRange g lo n) := by
  rw [flips, ones_mod_two, xorRange_xor]
  cases xorRange f lo n ^^ xorRange g lo n <;> rfl

theorem parityCheck_flips (f g : Frame) (r : ParityRange) : parityCheck g r =
    (parityCheck f r ^^ decide (flips f g (parityData r).1 ((parityData r).2 + 1) % 2 = 1)) := by
  rw [decide_flips_odd, parityCheck_eq, parityCheck_eq]
  cases xorRange f (parityData r).1 ((parityData r).2 + 1) <;> simp

theorem parityOk_of_parityCheck_false {f : Frame} {r : ParityRange} (h : parityCheck f r = false) : parityOk f = false := by
  cases r <;> simp [parityOk, parityMinuteOk, parityHourOk, parityDateOk, h]

/-- Settles O33: an odd number of flips makes a passed check fail, and a failed check is the parity case of `DECODE`. -/
theorem oddFlipsFlipTheVerdict : Obligations.OddFlipsFlipTheVerdict := by
  intro f g r
  refine ⟨parityCheck_flips f g r, fun hpass hodd => ?_⟩
  have hfail : parityCheck g r = false := by rw [parityCheck_flips f g r, hpass, decide_eq_true hodd]; rfl
  have hparity := parityOk_of_parityCheck_false hfail
  exact ⟨hparity, fun s hb => execDecode_parity hb hparity⟩

/-! ## The plausibility check -/

/-- Settles O34: the verdict is `plausOk`, which compares the three operands with zero. -/
theorem plausRejectsZerosOnly : Obligations.PlausRejectsZerosOnly := by
  intro s day month year
  exact ⟨plausOk day month year, rfl, plausOk_iff day month year⟩

end Sys2Proof.Proofs
end

section
/-! PROOFS. The commands (spec 46) and the words' ignored bits (spec 30 R61): what `DECODE` reads and writes, what the
acquisition leaves to it, and when a command has completed. -/

namespace Sys2Proof.Proofs

open Sys2Proof.Machine Sys2Proof.Claims

/-! ## What DECODE reads -/

/-- Beyond the frame's verdicts and its fields `DECODE` reads nothing of it. -/
theorem execDecode_congr {f g : Frame} (hp : parityOk f = parityOk g) (hv : extractAll f = extractAll g) (size : Nat)
    (s : State) : execDecode size f s = execDecode size g s := by
  simp only [execDecode, hp, hv]

section Agree

variable {f g : Frame} (agree : ∀ k, 21 ≤ k → k ≤ 58 → AgreeAt f g k)
include agree

/-- The checks lie in the positions 21 to 58. -/
theorem parityOk_congr : parityOk f = parityOk g := by
  have hcheck : ∀ r, parityCheck f r = parityCheck g r := fun r => parityCheck_congr fun k h1 h2 => by
    cases r <;> exact agree k (le_trans (by decide) h1) (le_trans h2 (by decide))
  simp only [parityOk, parityMinuteOk, parityHourOk, parityDateOk, hcheck]

/-- The six fields of the time lie in the positions 21 to 57. -/
theorem extract_congr_of_agree {fd : Field} (h : 21 ≤ (fieldRange fd).1) : extract f fd = extract g fd :=
  extract_congr fun k h1 h2 => agree k (le_trans h h1) (Nat.le_of_lt_succ (Nat.lt_of_lt_of_le h2 (fieldRange_inside fd)))

/-- Of the eight fields only the two flags can differ. -/
theorem extractAll_congr :
    extractAll g = { extractAll f with transmitterFault := valueTf g, a1 := valueA1 g } := by
  have hextract : ∀ fd, 21 ≤ (fieldRange fd).1 → extract g fd = extract f fd := fun _ h =>
    (extract_congr_of_agree agree h).symm
  rw [extractAll, extractAll, valueMinute, valueHour, valueDay, valueWeekday, valueMonth, valueYear,
    hextract .minute (by decide), hextract .hour (by decide), hextract .day (by decide), hextract .weekday (by decide),
    hextract .month (by decide), hextract .year (by decide)]
  rfl

end Agree

/-- Settles O39: the two frames meet the same outcome; where it is a success, the published values differ in the flags. -/
theorem unprotectedPositionsChangeOnlyTheFlags : Obligations.UnprotectedPositionsChangeOnlyTheFlags := by
  intro s f g hb agree
  have hparity : ParityHolds f ↔ ParityHolds g := by rw [← parityOk_iff, ← parityOk_iff, parityOk_congr agree]
  have hdate : DateHolds f ↔ DateHolds g := by
    rw [DateHolds, DateHolds, ← extract_day_eq_daySum, ← extract_month_eq_monthSum, ← extract_year_eq_yearSum,
      ← extract_day_eq_daySum, ← extract_month_eq_monthSum, ← extract_year_eq_yearSum,
      extract_congr_of_agree agree (fd := .day) (by decide), extract_congr_of_agree agree (fd := .month) (by decide),
      extract_congr_of_agree agree (fd := .year) (by decide)]
  by_cases hp : ParityHolds f
  case neg =>
    exact ⟨_, _, exec_decode_of_not_parityHolds hb hp, exec_decode_of_not_parityHolds hb (mt hparity.mpr hp), rfl, nofun⟩
  by_cases hd : DateHolds f
  case neg =>
    exact ⟨_, _, exec_decode_of_not_dateHolds hb hp hd,
      exec_decode_of_not_dateHolds hb (hparity.mp hp) (mt hdate.mpr hd), rfl, nofun⟩
  refine ⟨_, _, exec_decode_of_holds hb hp hd, exec_decode_of_holds hb (hparity.mp hp) (hdate.mp hd), ?_,
    fun _ => ⟨rfl, rfl⟩⟩
  rw [← extractAll_eq_timeValue g, extractAll_congr agree, extractAll_eq_timeValue f]
  rfl

/-- Settles O40: `NOP`, `RSVD`, `ACQUIRE` and `SYNC` have no meaning that names the ignored field, the sentinel is classified
before its duration is looked at, and `DECODE` reads its frame after its size, and there no other positions. -/
theorem ignoredBitsChangeNothing : Obligations.IgnoredBitsChangeNothing := by
  intro s size size' f g dur dur' noPulse
  refine ⟨rfl, rfl, rfl, ?wrongSize, ?frame, ?capture, rfl, rfl⟩
  case wrongSize =>
    intro hs
    change execDecode size f s = execDecode size g s
    cases hb : s.core.busy
    case true => rw [execDecode_busy hb, execDecode_busy hb]
    case false => rw [execDecode_size hb hs, execDecode_size hb hs]
  case frame =>
    intro agree
    have agree21 : ∀ k, 21 ≤ k → k ≤ 58 → AgreeAt f g k := fun k h1 h2 => agree k (.inr (.inr ⟨h1, h2⟩))
    have hflags : valueTf g = valueTf f ∧ valueA1 g = valueA1 f := by
      rw [valueTf, valueTf, valueA1, valueA1, extract_transmitterFault, extract_transmitterFault, extract_a1, extract_a1,
        agree 15 (.inl rfl), agree 16 (.inr (.inl rfl))]
      exact ⟨rfl, rfl⟩
    have hfields : extractAll f = extractAll g := by
      rw [extractAll_congr agree21, hflags.1, hflags.2]
      rfl
    exact execDecode_congr (parityOk_congr agree21) hfields 59 s
  case capture =>
    change execCapture true dur s = execCapture true dur' s
    by_cases hst : s.core.st = .capture
    case pos => rw [execCapture_eq hst, execCapture_eq hst, classify_noPulse, classify_noPulse]
    case neg => rw [execCapture_elsewhere hst, execCapture_elsewhere hst]

/-! ## What DECODE writes -/

/-- The all-zero frame has even parities and no date (spec 45 R127). -/
theorem parityHolds_zero : ParityHolds 0 := by decide

theorem not_dateHolds_zero : ¬ DateHolds 0 := by decide

theorem frameOut_of_not_valid {c : CoreState} (h : frameValid c = false) : frameOut c = 0 := by
  simp [frameOut, h]

/-- Settles O38: a hidden `frame_o` is the all-zero frame, and that one has good parities and no date. -/
theorem allZeroFrameIsADateError : Obligations.AllZeroFrameIsADateError := by
  intro s hb
  have hdate {f : Frame} (hp : ParityHolds f) (hd : ¬ DateHolds f) := exec_decode_of_not_dateHolds hb hp hd
  have hzero := hdate parityHolds_zero not_dateHolds_zero
  refine ⟨(parityOk_iff 0).mpr parityHolds_zero, hzero, fun hv => ?_, fun f hp hd => hdate hp hd⟩
  have hout : (outputs s.params s.core).frame = 0 := frameOut_of_not_valid hv
  rw [hout]
  exact hzero

/-- In every state a `DECODE` writes the decoder's two elements and nothing else. -/
theorem exec_decode_frame (size : Nat) (f : Frame) (s : State) :
    ∃ r tv, exec (.decode size f) s = .next (s.withCore { s.core with decResult := r, tv := tv }) := by
  cases hb : s.core.busy
  case true => exact ⟨s.core.decResult, s.core.tv, execDecode_busy hb size f⟩
  case false =>
    obtain ⟨r, tv, -, hexec⟩ := exec_decode_records size f
    exact ⟨r, tv, hexec s hb⟩

/-! ## What the acquisition writes -/

/-- An operation that is not `DECODE` makes no move on the decoder's two elements. -/
theorem decResult_tv_of_move {p : Params} {i : Instr} {c c' : CoreState} (m : CoreMove p i c c')
    (h : ∀ size frame, i ≠ .decode size frame) : c'.decResult = c.decResult ∧ c'.tv = c.tv := by
  cases m
  case size size frame hi _ _ => exact absurd hi (h size frame)
  case parity frame hi _ _ | date frame hi _ _ _ | publish frame hi _ _ _ => exact absurd hi (h 59 frame)
  all_goals exact ⟨rfl, rfl⟩

theorem execAcquire_fnValue {size : Nat} {frame : Frame} {s t : State} (h : execAcquire size frame s = .next t) :
    t.fnValue = s.fnValue := by
  cases hb : s.core.busy
  case true => rw [execAcquire_busy hb] at h; cases h; rfl
  by_cases hs : size = 59
  case pos => subst hs; rw [execAcquire_start hb] at h; cases h; rfl
  case neg => rw [execAcquire_reject hb hs] at h; cases h; rfl

theorem execSync_fnValue {noPulse : Bool} {dur : Nat} {s t : State} (h : execSync noPulse dur s = .next t) :
    t.fnValue = s.fnValue := by
  by_cases hst : s.core.st = .waitMarker
  case neg => rw [execSync_elsewhere hst] at h; cases h; rfl
  cases noPulse
  case false => rw [execSync_pulse] at h; cases h; rfl
  case true => rw [execSync_marker hst] at h; cases h; rfl

theorem storeBit_fnValue {v : Bool} {s t : State} (h : storeBit v s = .next t) : t.fnValue = s.fnValue := by
  rcases Nat.lt_or_ge s.core.idx.toNat FRAME_LEN with hin | hout
  · obtain ⟨fb, -, he⟩ := storeBit_inside v hin
    rw [he] at h
    cases h
    rfl
  · rw [storeBit_outside v hout] at h
    cases h

theorem execCapture_fnValue {noPulse : Bool} {dur : Nat} {s t : State} (h : execCapture noPulse dur s = .next t) :
    t.fnValue = s.fnValue := by
  by_cases hst : s.core.st = .capture
  case neg => rw [execCapture_elsewhere hst] at h; cases h; rfl
  rw [execCapture_eq hst] at h
  cases hc : classify s.params noPulse dur <;> simp only [hc] at h
  case bit0 | bit1 => exact storeBit_fnValue h
  case noPulse | outOfRange => cases h; rfl

/-- Settles O44: a `DECODE` writes `dec_result` and `TV` alone, and no move of the other three writes either. -/
theorem decodeAndAcquisitionAreIndependent : Obligations.DecodeAndAcquisitionAreIndependent := by
  intro s t size frame noPulse dur
  refine ⟨fun h => ?decode, fun i hi h => ?acquisition⟩
  case decode =>
    obtain ⟨r, tv, he⟩ := exec_decode_frame size frame s
    rw [he] at h
    cases h
    exact ⟨rfl, rfl, rfl, rfl, rfl, rfl⟩
  case acquisition =>
    obtain ⟨hm, hparams, hinputs⟩ := exec_move h
    simp only [List.mem_cons, List.not_mem_nil, or_false] at hi
    have hdecode : ∀ size frame, i ≠ .decode size frame := by rcases hi with rfl | rfl | rfl <;> exact nofun
    have hfn : t.fnValue = s.fnValue := by
      rcases hi with rfl | rfl | rfl
      · exact execAcquire_fnValue (frame := frame) h
      · exact execSync_fnValue (dur := dur) h
      · exact execCapture_fnValue h
    obtain ⟨hres, htv⟩ := decResult_tv_of_move hm hdecode
    exact ⟨hres, htv, hparams, hinputs, hfn⟩

/-! ## The command port -/

/-- Settles O41: neither meaning writes; the words are those of the command port, which is open when the block is not busy. -/
theorem nopAndRsvdChangeNothing : Obligations.NopAndRsvdChangeNothing := by
  intro s size frame
  refine ⟨rfl, rfl, fun h => ⟨?nop, ?rsvd⟩, select_cmd_idle, select_cmd_busy⟩
  case nop => exact (congrArg _ (commandWord_eq_cmdBytes OP_NOP frame h)).trans (decode_nopBytes frame h)
  case rsvd => exact (congrArg _ (commandWord_eq_cmdBytes OP_RSVD frame h)).trans (decode_rsvdBytes frame h)

/-- Settles O43: only the start of an acquisition moves to a busy `st`. -/
theorem commandsCompleteInTheirOwnEvent : Obligations.CommandsCompleteInTheirOwnEvent := by
  intro s size frame hb
  refine ⟨?commands, _, execAcquire_start hb frame, rfl⟩
  simp only [commands, List.forall_mem_cons]
  refine ⟨fun _ => ⟨s, rfl, hb⟩, fun hne => ?acquire, fun _ => ?decode, fun _ => ⟨s, rfl, hb⟩, by simp⟩
  case acquire =>
    have hs : size ≠ 59 := hne.resolve_right (not_not.mpr rfl)
    exact ⟨_, execAcquire_reject hb hs frame, hb⟩
  case decode =>
    obtain ⟨r, tv, he⟩ := exec_decode_frame size frame s
    exact ⟨_, he, hb⟩

end Sys2Proof.Proofs
end

section
/-! PROOFS. The outputs (spec 10), the records of the errors (spec 60) and the parameters (spec 00). -/

namespace Sys2Proof.Proofs

open Sys2Proof.Machine Sys2Proof.Claims

theorem frameValid_iff {c : CoreState} : frameValid c = true ↔ c.st = .complete := beq_iff_eq

theorem frameOut_of_complete {c : CoreState} (h : c.st = .complete) : frameOut c = c.fb := if_pos (frameValid_iff.mpr h)

theorem frameOut_of_not_complete {c : CoreState} (h : c.st ≠ .complete) : frameOut c = 0 :=
  frameOut_of_not_valid (Bool.eq_false_iff.mpr (mt frameValid_iff.mp h))

/-- Settles O46: `busy_o` and the frame by their lemmas, each code by its table, the rest as they stand in `outputs`. -/
theorem outputsShowTheState : Obligations.OutputsShowTheState := by
  intro p c
  exact ⟨c.busy_iff, rfl, rfl, rfl, frameValid_iff, frameOut_of_complete, frameOut_of_not_complete,
    congrArg AcqState.code, congrArg AcqState.code, congrArg AcqState.code, congrArg AcqState.code,
    congrArg AcqState.code, rfl,
    congrArg AcqResult.code, congrArg AcqResult.code, congrArg AcqResult.code, congrArg AcqResult.code,
    congrArg AcqCause.code, congrArg AcqCause.code, congrArg AcqCause.code,
    congrArg DecResult.code, congrArg DecResult.code, congrArg DecResult.code, congrArg DecResult.code,
    congrArg DecResult.code, beq_iff_eq, rfl, rfl, rfl, rfl, rfl, rfl, rfl, rfl⟩

/-- Settles O55: the table of spec 60 R148 is `raise` itself. -/
theorem raiseWritesOnlyItsRecord : Obligations.RaiseWritesOnlyItsRecord :=
  fun _ _ => ⟨rfl, rfl, rfl, rfl, rfl⟩

theorem build_of_wf {r : RawParams} (h : r.wf) : Params.build r = some { raw := r, ok := h } := dif_pos h

theorem build_of_not_wf {r : RawParams} (h : ¬ r.wf) : Params.build r = none := dif_neg h

/-- Settles O56: a set is built when it meets the constraints, with its own values, and only then. -/
theorem parametersOutOfOrderAreRefused : Obligations.ParametersOutOfOrderAreRefused := by
  intro durW sizeW lowMin bit0Max bit1Max pulseTimeout r
  have hwf : r.wf ↔ 1 ≤ durW ∧ 6 ≤ sizeW ∧ lowMin < bit0Max ∧ bit0Max < bit1Max ∧ bit1Max < 2 ^ durW ∧
      0 < pulseTimeout ∧ pulseTimeout < 2 ^ durW := and_assoc
  rw [← hwf]
  exact ⟨fun h => ⟨_, build_of_wf h, rfl, rfl, rfl, rfl, rfl, rfl⟩, build_of_not_wf⟩

end Sys2Proof.Proofs
end

section
/-! PROOFS. An acquisition (spec 41, spec 42): its start, the wait for the marker, and the run over the frame's bits. -/

namespace Sys2Proof.Proofs

open Sys2Proof.Machine Sys2Proof.Claims

/-! ## ACQUIRE -/

/-- Settles O17: the rejection writes the two result registers, and every output asked about is a function of the others. -/
theorem acquireWrongSizeLeavesTheFrame : Obligations.AcquireWrongSizeLeavesTheFrame := by
  intro s size frame hb hs
  exact ⟨_, execAcquire_reject hb hs frame, rfl, rfl, rfl, hb, rfl, rfl, rfl⟩

/-- Settles O18: `frame_o` is gated by `st`, which leaves `COMPLETE`; the buffer is not written. -/
theorem acquireHidesTheEarlierFrame : Obligations.AcquireHidesTheEarlierFrame := by
  intro s frame hb
  exact ⟨_, execAcquire_start hb frame, rfl, rfl, rfl, rfl, rfl⟩

/-! ## CAPTURE -/

/-- At the last index a stored bit completes the frame. -/
theorem storeBit_complete {s : State} (v : Bool) (h : s.core.idx = 58) :
    ∃ fb, memWrite s.core.fb 58 v = some fb ∧ storeBit v s = .next (s.withCore (s.core.complete fb)) := by
  obtain ⟨fb, hfb, he⟩ := storeBit_inside (s := s) v (by rw [h]; decide)
  rw [h] at hfb
  exact ⟨fb, hfb, by rw [he, if_pos h]⟩

/-- Settles O23: the step is `storeBit` of the bit at the last index. -/
theorem captureCompletesTheFrame : Obligations.CaptureCompletesTheFrame := by
  intro s noPulse dur b hst hidx hbit
  obtain ⟨fb, hfb, hstore⟩ := storeBit_complete b hidx
  obtain ⟨-, hcell, hothers⟩ := memWrite_spec hfb
  have hexec : exec (.capture noPulse dur) s = .next (s.withCore (s.core.complete fb)) :=
    (execCapture_of_isBit hst hbit).trans hstore
  have hnext : (s.core.complete fb).idx = 59 := by rw [CoreState.complete_idx, hidx]; rfl
  exact ⟨_, hexec, hcell, hothers, hnext, rfl, rfl, rfl, rfl, rfl, rfl, rfl, rfl, rfl, rfl, rfl, rfl⟩

/-- The failures of the statements are the classifier's two results that are no bit (spec 40 R70, R71). -/
theorem execCapture_of_isFailure {s : State} {noPulse : Bool} {dur : Nat} {cause : AcqCause} (hst : s.core.st = .capture)
    (h : IsFailure s.params noPulse dur cause) :
    execCapture noPulse dur s = .next (s.withCore (raise (.timeout cause) s.core)) := by
  rw [execCapture_eq hst]
  obtain ⟨rfl, rfl⟩ | ⟨rfl, hl | hu, rfl⟩ := h
  · rw [classify_noPulse]
  · rw [classify_tooShort hl]
  · rw [classify_tooLong hu]

/-- Settles O24: the step raises the timeout with its cause, in a state whose outputs are hidden. -/
theorem captureFailureTimesOut : Obligations.CaptureFailureTimesOut := by
  intro s noPulse dur cause hst hfail
  exact ⟨_, execCapture_of_isFailure hst hfail, rfl, rfl, rfl, rfl, rfl⟩

/-- Settles O25: `exec_fault` gives the one way to fault, and a bit to store beyond the frame takes it. -/
theorem faultOnlyBeyondTheFrame : Obligations.FaultOnlyBeyondTheFrame := by
  intro i s f
  constructor
  · intro h
    obtain ⟨hst, hidx, noPulse, dur, b, hi, hc⟩ := exec_fault h
    cases f
    exact ⟨rfl, hst, hidx, noPulse, dur, b, hi, isBit_of_classify hc⟩
  · rintro ⟨rfl, hst, hidx, noPulse, dur, b, rfl, hbit⟩
    exact (execCapture_of_isBit hst hbit).trans (storeBit_outside b hidx)

/-! ## Steps over responses -/

section Responses

variable {s : State} {noPulse : Bool} {dur : Nat} {rest : List Input}

theorem step_response_sync (hst : s.core.st = .waitMarker) (hd : dur < 2 ^ s.params.durW)
    (h : s.inputs = response s.params.widths noPulse dur :: rest) :
    step s = exec (.sync noPulse dur) { s with inputs := rest } :=
  step_rspBytes_sync h (fetch_present _ (select_rsp_wait hst)) hd

theorem step_response_capture (hst : s.core.st = .capture) (hd : dur < 2 ^ s.params.durW)
    (h : s.inputs = response s.params.widths noPulse dur :: rest) :
    step s = exec (.capture noPulse dur) { s with inputs := rest } :=
  step_rspBytes_capture h (fetch_present _ (select_rsp_capture hst)) hd

/-- The longest bit fits the port (spec 00 R2). -/
theorem dur_lt_of_isBit {p : Params} {b : Bool} (h : IsBit p noPulse dur b) : dur < 2 ^ p.durW := by
  obtain ⟨-, -, hbit1, hwidth, -⟩ := p.ok
  obtain ⟨-, ⟨-, -, hu⟩ | ⟨-, -, hu⟩⟩ := h
  · exact lt_of_le_of_lt hu (lt_trans hbit1 hwidth)
  · exact lt_of_le_of_lt hu hwidth

end Responses

/-! ## The wait for the marker -/

/-- Settles O20, by induction on the pulses: each is taken from the inputs and changes nothing. -/
theorem waitHasNoBound : Obligations.WaitHasNoBound := by
  intro ds
  induction ds with
  | nil =>
    rintro s rest - - h
    obtain rfl : s.inputs = rest := h
    rfl
  | cons d ds ih =>
    intro s rest hst hds h
    obtain ⟨hd, hds⟩ := List.forall_mem_cons.mp hds
    have hstep := (step_response_sync hst hd h).trans (execSync_pulse d _)
    exact (run_succ hstep).trans (ih _ rest hst hds rfl)

/-! ## The run over the bits -/

/-- What a run in `CAPTURE` over the bits `bs` leaves, `rest` still to come: the bits from `idx` on and nothing else. -/
structure Captured (s : State) (bs : List Bool) (rest : List Input) (t : State) : Prop where
  st : t.core.st = .capture
  idx : t.core.idx.toNat = s.core.idx.toNat + bs.length
  stored : ∀ k (hk : k < bs.length), t.core.fb.getLsbD (s.core.idx.toNat + k) = bs[k]
  others : ∀ k, k < s.core.idx.toNat ∨ s.core.idx.toNat + bs.length ≤ k → t.core.fb.getLsbD k = s.core.fb.getLsbD k
  acqCause : t.core.acqCause = s.core.acqCause
  decResult : t.core.decResult = s.core.decResult
  tv : t.core.tv = s.core.tv
  params : t.params = s.params
  inputs : t.inputs = rest

theorem areBits_cons_iff {p : Params} {d : Nat} {ds : List Nat} {b : Bool} {bs : List Bool} :
    AreBits p (d :: ds) (b :: bs) ↔ IsBit p false d b ∧ AreBits p ds bs := by
  constructor
  · rintro ⟨hlen, h⟩
    refine ⟨h 0 (Nat.succ_pos _) (Nat.succ_pos _), Nat.succ.inj hlen, fun k hd hb => ?_⟩
    exact h (k + 1) (Nat.succ_lt_succ hd) (Nat.succ_lt_succ hb)
  · rintro ⟨h0, hlen, h⟩
    refine ⟨congrArg Nat.succ hlen, fun k hd hb => ?_⟩
    cases k with
    | zero => exact h0
    | succ k => exact h k (Nat.lt_of_succ_lt_succ hd) (Nat.lt_of_succ_lt_succ hb)

theorem areBits_take {p : Params} {ds : List Nat} {bs : List Bool} (h : AreBits p ds bs) (n : Nat) :
    AreBits p (ds.take n) (bs.take n) := by
  obtain ⟨hlen, h⟩ := h
  refine ⟨by simp [hlen], fun k hd hb => ?_⟩
  rw [List.getElem_take, List.getElem_take]
  exact h k _ _

/-- One bit before the last index is captured by one step. -/
theorem step_captured {s : State} {d : Nat} {b : Bool} {rest : List Input} (hst : s.core.st = .capture)
    (hidx : s.core.idx.toNat ≤ 57) (hbit : IsBit s.params false d b)
    (h : s.inputs = response s.params.widths false d :: rest) : ∃ t, step s = .next t ∧ Captured s [b] rest t := by
  obtain ⟨fb, hfb, hstore⟩ := storeBit_advance (s := { s with inputs := rest }) b hidx
  obtain ⟨-, hcell, hothers⟩ := memWrite_spec hfb
  have hexec := (execCapture_of_isBit (s := { s with inputs := rest }) hst hbit).trans hstore
  refine ⟨_, (step_response_capture hst (dur_lt_of_isBit hbit) h).trans hexec, ?_⟩
  exact {
    st := hst
    idx := advance_idx_toNat fb hidx
    stored := fun k hk => by
      obtain rfl : k = 0 := Nat.lt_one_iff.mp hk
      exact hcell
    others := fun k hk => hothers k (by simp only [List.length_singleton] at hk ⊢; omega)
    acqCause := rfl
    decResult := rfl
    tv := rfl
    params := rfl
    inputs := rfl }

theorem Captured.nil {s : State} (hst : s.core.st = .capture) : Captured s [] s.inputs s :=
  ⟨hst, rfl, fun _ hk => absurd hk (Nat.not_lt_zero _), fun _ _ => rfl, rfl, rfl, rfl, rfl, rfl⟩

/-- One bit and then the others are all of them. -/
theorem Captured.cons {s u t : State} {b : Bool} {bs : List Bool} {mid rest : List Input} (hu : Captured s [b] mid u)
    (ht : Captured u bs rest t) : Captured s (b :: bs) rest t := by
  have hidx : u.core.idx.toNat = s.core.idx.toNat + 1 := hu.idx
  exact {
    st := ht.st
    idx := by rw [ht.idx, hidx, List.length_cons]; omega
    stored := fun k hk => by
      cases k with
      | zero => rw [ht.others _ (.inl (by omega))]; exact hu.stored 0 Nat.one_pos
      | succ k =>
        have hcell := ht.stored k (Nat.lt_of_succ_lt_succ hk)
        rw [hidx, Nat.add_assoc, Nat.add_comm 1] at hcell
        exact hcell
    others := fun k hk => by
      rw [List.length_cons] at hk
      rw [ht.others k (by omega), hu.others k (by rw [List.length_singleton]; omega)]
    acqCause := ht.acqCause.trans hu.acqCause
    decResult := ht.decResult.trans hu.decResult
    tv := ht.tv.trans hu.tv
    params := ht.params.trans hu.params
    inputs := ht.inputs }

/-- Any number of bits that leave room for one more are captured, by induction on them. -/
theorem run_captured {bs : List Bool} : ∀ {ds : List Nat} {s : State} {rest : List Input}, s.core.st = .capture →
    s.core.idx.toNat + bs.length ≤ 58 → AreBits s.params ds bs → s.inputs = pulses s.params.widths ds ++ rest →
      ∃ t, Host.Core.run Sys2Proof.core bs.length s = .next t ∧ Captured s bs rest t := by
  induction bs with
  | nil =>
    intro ds s rest hst _ hbits h
    obtain rfl : ds = [] := List.eq_nil_of_length_eq_zero hbits.1
    obtain rfl : s.inputs = rest := h
    exact ⟨s, rfl, .nil hst⟩
  | cons b bs ih =>
    intro ds s rest hst hroom hbits h
    rw [List.length_cons] at hroom
    obtain ⟨d, ds, rfl⟩ := List.exists_cons_of_length_eq_add_one hbits.1
    obtain ⟨hbit, hbits⟩ := areBits_cons_iff.mp hbits
    obtain ⟨u, hstep, hu⟩ := step_captured hst (by omega) hbit h
    have hidx : u.core.idx.toNat = s.core.idx.toNat + 1 := hu.idx
    obtain ⟨t, hrun, ht⟩ := ih hu.st (by omega) (hu.params ▸ hbits) (hu.params ▸ hu.inputs)
    exact ⟨t, (run_succ hstep).trans hrun, hu.cons ht⟩

/-- Settles O26: the bits are captured, and the failing response is O24's. -/
theorem failureAtTheKthCaptureIsATimeout : Obligations.FailureAtTheKthCaptureIsATimeout := by
  intro s ds bs noPulse dur cause rest hst hidx hlen hbits hfail hdur h
  have hzero : s.core.idx.toNat = 0 := by rw [hidx]; rfl
  obtain ⟨u, hrun, hu⟩ := run_captured hst (by omega) hbits h
  have hlast : step u = .next (({ u with inputs := rest } : State).withCore (raise (.timeout cause) u.core)) :=
    (step_response_capture hu.st (hu.params ▸ hdur) (hu.params ▸ hu.inputs)).trans
      (execCapture_of_isFailure (s := { u with inputs := rest }) hu.st (hu.params ▸ hfail))
  refine ⟨_, (run_add hrun).trans (run_one hlast), rfl, rfl, rfl, ?idx, fun k hk => ?stored, fun k hk => ?others, rfl,
    hu.decResult, hu.tv, rfl⟩
  case idx => exact hu.idx.trans (by rw [hzero, Nat.zero_add])
  case stored =>
    have hcell := hu.stored k hk
    rw [hzero, Nat.zero_add] at hcell
    exact hcell
  case others => exact hu.others k (.inr (by omega))

/-! ## A whole acquisition -/

/-- What a run from `CAPTURE` with `idx` 0 over the 59 bits `bs` leaves. -/
structure Completed (s : State) (bs : List Bool) (rest : List Input) (t : State) : Prop where
  st : t.core.st = .complete
  idx : t.core.idx = 59
  acqResult : t.core.acqResult = .success
  acqCause : t.core.acqCause = s.core.acqCause
  stored : ∀ k (hk : k < bs.length), t.core.fb.getLsbD k = bs[k]
  decResult : t.core.decResult = s.core.decResult
  tv : t.core.tv = s.core.tv
  inputs : t.inputs = rest

theorem take_concat_last {α : Type} {l : List α} {n : Nat} (h : l.length = n + 1) :
    l.take n ++ [l[n]'(h ▸ Nat.lt_succ_self n)] = l := by
  rw [List.take_append_getElem, List.take_of_length_le (Nat.le_of_eq h)]

theorem pulses_concat (w : Widths) (ds : List Nat) (d : Nat) (rest : List Input) :
    pulses w (ds ++ [d]) ++ rest = pulses w ds ++ response w false d :: rest := by
  simp [pulses]

/-- The last bit completes the frame in one step, where 58 are captured. -/
theorem step_completed {s u : State} {bs : List Bool} {d : Nat} {rest : List Input} (hidx : s.core.idx = 0)
    (hlen : bs.length = 59) (hbit : IsBit s.params false d (bs[58]'(hlen ▸ Nat.lt_succ_self 58)))
    (hu : Captured s (bs.take 58) (response s.params.widths false d :: rest) u) :
    ∃ t, step u = .next t ∧ Completed s bs rest t := by
  have hzero : s.core.idx.toNat = 0 := by rw [hidx]; rfl
  have huidx : u.core.idx = 58 := by
    apply BitVec.eq_of_toNat_eq
    rw [hu.idx, hzero, List.length_take, hlen]
    rfl
  rw [← hu.params] at hbit
  obtain ⟨fb, hfb, hstore⟩ := storeBit_complete (s := { u with inputs := rest }) bs[58] huidx
  obtain ⟨-, hcell, hothers⟩ := memWrite_spec hfb
  have hexec := (execCapture_of_isBit (s := { u with inputs := rest }) hu.st hbit).trans hstore
  refine ⟨_, (step_response_capture hu.st (dur_lt_of_isBit hbit) (hu.params ▸ hu.inputs)).trans hexec, ?_⟩
  exact {
    st := rfl
    idx := by rw [State.withCore_core, CoreState.complete_idx, huidx]; rfl
    acqResult := rfl
    acqCause := hu.acqCause
    stored := fun k hk => by
      rcases Nat.lt_or_ge k 58 with hlt | hge
      · have hbefore := hu.stored k (by rw [List.length_take, hlen]; exact hlt)
        rw [hzero, Nat.zero_add, List.getElem_take] at hbefore
        exact (hothers k (Nat.ne_of_lt hlt)).trans hbefore
      · obtain rfl : k = 58 := by omega
        exact hcell
    decResult := hu.decResult
    tv := hu.tv
    inputs := rfl }

/-- 59 bits are 58 captured ones and the one that completes. -/
theorem run_completed {s : State} {ds : List Nat} {bs : List Bool} {rest : List Input} (hst : s.core.st = .capture)
    (hidx : s.core.idx = 0) (hlen : bs.length = 59) (hbits : AreBits s.params ds bs)
    (h : s.inputs = pulses s.params.widths ds ++ rest) :
    ∃ t, Host.Core.run Sys2Proof.core 59 s = .next t ∧ Completed s bs rest t := by
  have hdlen : ds.length = 58 + 1 := hbits.1.trans hlen
  have htake : (bs.take 58).length = 58 := by rw [List.length_take, hlen]; rfl
  have hroom : s.core.idx.toNat + (bs.take 58).length ≤ 58 := by rw [hidx, htake]; decide
  rw [← take_concat_last hdlen, pulses_concat] at h
  obtain ⟨u, hrun, hu⟩ := run_captured hst hroom (areBits_take hbits 58) h
  obtain ⟨t, hstep, ht⟩ := step_completed hidx hlen (hbits.2 58 _ _) hu
  rw [htake] at hrun
  exact ⟨t, (run_add (n := 1) hrun).trans (run_one hstep), ht⟩

/-- Any pulses and then the marker lead from `WAIT_MARKER` to `CAPTURE`. -/
theorem run_to_marker {s : State} {waits : List Nat} {marker : Nat} {rest : List Input} (hst : s.core.st = .waitMarker)
    (hwaits : ∀ d ∈ waits, d < 2 ^ s.params.durW) (hmarker : marker < 2 ^ s.params.durW)
    (h : s.inputs = pulses s.params.widths waits ++ response s.params.widths true marker :: rest) :
    Host.Core.run Sys2Proof.core (waits.length + 1) s =
      .next (({ s with inputs := rest } : State).withCore s.core.enterCapture) := by
  rw [run_add (waitHasNoBound waits s _ hst hwaits h)]
  refine run_one (Eq.trans (step_response_sync hst hmarker rfl) ?_)
  exact execSync_marker (s := { s with inputs := rest }) hst marker

/-- The command of an acquisition, offered to a block that is not busy. -/
theorem step_acquire {s : State} {frame : Frame} {rest : List Input} (hb : s.core.busy = false)
    (h : s.inputs = .event (.present .cmd (cmdBytes s.params.widths OP_ACQUIRE 59 frame)) :: rest) :
    step s = .next (({ s with inputs := rest } : State).withCore s.core.startAcquisition) := by
  have hsize : 59 < 2 ^ s.params.sizeW :=
    lt_of_lt_of_le (by decide) (Nat.pow_le_pow_right (by decide) s.params.ok.1.2 : 2 ^ 6 ≤ 2 ^ s.params.sizeW)
  rw [step_packet h (fetch_present _ (select_cmd_idle hb)) (decode_acquireBytes frame hsize)]
  exact execAcquire_start (s := { s with inputs := rest }) hb frame

/-- The command and the marker, with any pulses between them, lead to `CAPTURE` with `idx` 0 and cleared result registers. -/
theorem run_to_capture {s : State} {frame : Frame} {waits : List Nat} {marker : Nat} {rest : List Input}
    (hb : s.core.busy = false) (hwaits : ∀ d ∈ waits, d < 2 ^ s.params.durW) (hmarker : marker < 2 ^ s.params.durW)
    (h : s.inputs = .event (.present .cmd (cmdBytes s.params.widths OP_ACQUIRE 59 frame)) ::
      (pulses s.params.widths waits ++ response s.params.widths true marker :: rest)) :
    Host.Core.run Sys2Proof.core (waits.length + 2) s =
      .next (({ s with inputs := rest } : State).withCore s.core.startAcquisition.enterCapture) := by
  exact (run_succ (step_acquire hb h)).trans (run_to_marker rfl hwaits hmarker rfl)

/-- Settles O27: the way to `CAPTURE`, and the 59 bits from there, which overwrite every cell of the buffer. -/
theorem acquisitionDeliversTheFrame : Obligations.AcquisitionDeliversTheFrame := by
  intro s frame waits marker ds bs rest hb hlen hbits hwaits hmarker h
  have hcapture := run_to_capture hb hwaits hmarker h
  obtain ⟨t, hrun, ht⟩ := run_completed
    (s := ({ s with inputs := pulses s.params.widths ds ++ rest } : State).withCore s.core.startAcquisition.enterCapture)
    rfl rfl hlen hbits rfl
  have hframe : (outputs t.params t.core).frame = t.core.fb := frameOut_of_complete ht.st
  exact ⟨t, (run_add (n := 59) hcapture).trans hrun, ht.st, ht.idx, ht.acqResult, ht.acqCause, frameValid_iff.mpr ht.st,
    fun k hk => hframe ▸ ht.stored k hk, ht.decResult, ht.tv, ht.inputs⟩

end Sys2Proof.Proofs
end
